-- ==== Sys2Proof/Word.lean ====
section
/-! DEFINITION. The bit patterns the SVF-IIR core moves as bits: the 32-bit command word and its 8-bit field D
(30_encoding.md R78), and the five STATUS bits (10_state.md R27). Every other value of the core is an integer
(00_scope.md R13): samples, accumulators, coefficients and scaled outputs are `Int`, codes, cursors and port
patterns `Nat`. -/

namespace Sys2Proof

/-- The 32-bit command word `w` (30_encoding.md R78). -/
abbrev CmdWord := BitVec 32

/-- The field D = w[15:8]: a distance, a tap index or a register index (30_encoding.md R80). -/
abbrev Index := BitVec 8

/-- The STATUS register's five bits: ILL 0, RNG 1, ACCOVF 2, OUTOVF 3, LASTOVF 4 (10_state.md R27). -/
abbrev StatusBits := BitVec 5

/-- `v` lies in the signed range of `w` bits, -2^(w-1) to 2^(w-1) - 1, for `w` at least 1 (00_scope.md R9, R14). -/
abbrev InSigned (w : Nat) (v : Int) : Prop :=
  -(2 : Int) ^ (w - 1) ≤ v ∧ v < (2 : Int) ^ (w - 1)

end Sys2Proof
end

