-- ==== Sys2Proof/Config.lean ====
section
/-! DEFINITION. What an implementation fixes at elaboration (00_scope.md R5 to R12), the check that refuses an illegal
configuration (R10), the repository's configuration (R11), and the one free value: the execution time of a command
(R12, 70_reset_and_hazards.md R206). -/

namespace Sys2Proof

/-- The elaboration-time parameters (00_scope.md R5 to R9, R12), before any check. -/
structure Params where
  /-- LOG2N, R5. -/
  log2n : Nat
  /-- ACC_W, R6. -/
  accW : Nat
  /-- IN_W, R7. -/
  inW : Nat
  /-- OUT_W, R8. -/
  outW : Nat
  /-- T_INIT, the edges of post-reset initialisation, R12. -/
  tInit : Nat
  /-- NUM[0..N-1], R9. -/
  num : List Int
  /-- DEN[1..N-1] in order: the head is DEN[1], since DEN[0] is not stored, R9. -/
  den : List Int
  /-- SNUM, R9. -/
  snum : Int
  /-- SDEN, R9. -/
  sden : Int
deriving DecidableEq, Repr

/-- N = 2^LOG2N, the capacity of each history buffer and the tap count (00_scope.md R5). -/
def Params.n (p : Params) : Nat := 2 ^ p.log2n

/-- A legal configuration (00_scope.md R10; the bound on T_INIT is R12's). -/
abbrev Params.Legal (p : Params) : Prop :=
  p.log2n ≤ 8 ∧
  (64 ≤ p.accW ∧ p.accW ≤ 128) ∧
  (2 ≤ p.inW ∧ p.inW ≤ 64) ∧
  (1 ≤ p.outW ∧ p.outW ≤ p.accW) ∧
  p.tInit ≤ p.n ∧
  p.num.length = p.n ∧
  p.den.length = p.n - 1 ∧
  (∀ v ∈ p.num, InSigned p.accW v) ∧
  (∀ v ∈ p.den, InSigned p.accW v) ∧
  InSigned p.accW p.snum ∧
  InSigned p.accW p.sden ∧
  p.sden ≠ 0

/-- A configuration a core can have: no core exists for an illegal one (00_scope.md R10), so the value carries the
proof of the check, and a machine with an illegal configuration cannot be written down (93 U3). -/
structure Config extends Params where
  legal : toParams.Legal
deriving DecidableEq, Repr

/-- Elaboration: the configuration check accepts legal parameters and refuses all others (00_scope.md R10). -/
def Params.elaborate (p : Params) : Option Config :=
  if h : p.Legal then some ⟨p, h⟩ else none

/-- REPO_CFG (00_scope.md R11), with the IN_W = 13 and OUT_W = 12 of 95_test_vectors.md and T_INIT = 0.
DESIGN CHOICE, unsafe: the spec leaves OUT_W and T_INIT open (log 2). -/
def Params.repo : Params where
  log2n := 2
  accW := 64
  inW := 13
  outW := 12
  tInit := 0
  num := [467263, 1401790, 1401790, 467263]
  den := [-295175000000, 290568000000, -95389600000]
  snum := 8446
  sden := 6758

theorem Params.repo_legal : Params.repo.Legal := by decide

/-- The legal configuration REPO_CFG (00_scope.md R11). -/
def Config.repo : Config := ⟨Params.repo, Params.repo_legal⟩

/-- FREE VALUE: the edges a command spends in EXEC beyond the first, for the n-th command accepted, of word `w` and operand
`d`. T_EXEC is finite, at least 1, and may differ by opcode and by execution (00_scope.md R12,
70_reset_and_hazards.md R205); nothing else is known of it (R206).
DESIGN CHOICE (log 3): the spec leaves open what T_EXEC depends on; here it is the acceptance count, the word and the
operand, and neither the configuration nor the rest of the state. Safe for a claim about one run, which holds
whatever T_EXEC each of its commands takes; unsafe for a claim that compares the edge counts of two runs. -/
opaque Config.execDelay (n : Nat) (w : CmdWord) (d : Nat) : Nat

/-- T_EXEC of the n-th accepted command, of word `w` and operand `d`: at least 1 (00_scope.md R12; log 3). -/
def Config.execTime (n : Nat) (w : CmdWord) (d : Nat) : Nat := Config.execDelay n w d + 1

end Sys2Proof
end

