-- ==== Sys2Proof/Syntax.lean ====
section
/-! DEFINITION. The command set as syntax: one constructor per row of spec/opcode_table.json (30_encoding.md R79, R86).
An operand a command ignores is no argument of its constructor: the data operand d stands only in the four
commands that use it (30_encoding.md R83), D and S only in those whose encoding has them (R82). -/

namespace Sys2Proof

/-- The coefficient bank that S selects in RDCOEF: 0 is NUM, 1 is DEN (30_encoding.md R81). -/
inductive Bank where
  | num
  | den
deriving DecidableEq, Repr

/-- The ten commands (30_encoding.md R79). A `d : Nat` is the data operand, an ACC_W-bit pattern (R83). -/
inductive Instr where
  /-- NOP, 42_control.md R150. -/
  | nop
  /-- COMPUTE with the raw sample in `d`, 41_engine.md R120. -/
  | compute (d : Nat)
  /-- PUSHX with the value in `d`, 40_history_buffer.md R101. -/
  | pushx (d : Nat)
  /-- PUSHY with the value in `d`, 40_history_buffer.md R102. -/
  | pushy (d : Nat)
  /-- GETX at distance `dist`, 40_history_buffer.md R104. -/
  | getx (dist : Index)
  /-- GETY at distance `dist`, 40_history_buffer.md R105. -/
  | gety (dist : Index)
  /-- CLEAR, 40_history_buffer.md R107. -/
  | clear
  /-- RDCOEF of tap `index` of `bank`, 42_control.md R152. -/
  | rdcoef (bank : Bank) (index : Index)
  /-- RDREG of register `index`, 42_control.md R153. -/
  | rdreg (index : Index)
  /-- CLRSTAT with the clear mask in `d`, 42_control.md R154. -/
  | clrstat (d : Nat)
deriving DecidableEq, Repr

end Sys2Proof
end

