-- ==== Sys2Proof/WellFormed.lean ====
section
/-! DEFINITION. When a command is well formed for a configuration: its data operand is an ACC_W-bit pattern
(30_encoding.md R78, R83). D and S are well formed by their types: an 8-bit field and a bank. A distance or index the
configuration gives no meaning is still a well-formed command, answered with RANGE (R80, R90). -/

namespace Sys2Proof

/-- `d` is a pattern the `cmd_data` port can carry: ACC_W bits (30_encoding.md R71). -/
def dataFits (c : Config) (d : Nat) : Bool := decide (d < 2 ^ c.accW)

/-- Well-formedness of a command under a configuration (30_encoding.md R78, R83). -/
def Instr.wellFormed (c : Config) : Instr → Bool
  | .nop => true
  | .compute d => dataFits c d
  | .pushx d => dataFits c d
  | .pushy d => dataFits c d
  | .getx _ => true
  | .gety _ => true
  | .clear => true
  | .rdcoef _ _ => true
  | .rdreg _ => true
  | .clrstat d => dataFits c d

end Sys2Proof
end

