-- ==== Sys2Proof/Decode.lean ====
section
/-! DEFINITION. Decoding a command word and its data operand (30_encoding.md R78 to R84, R87), the opcode table as match
and mask rows (R86), and the encoder written from the same table (R92). The decoder is total: every 32-bit word is a
command or is refused by name. -/

namespace Sys2Proof

/-- Why a word is ILLEGAL (30_encoding.md R87). -/
inductive DecodeError where
  /-- OP = 0xA to 0xF. -/
  | reservedOpcode
  /-- A non-zero bit outside the fields of a valid OP. -/
  | reservedBits
deriving DecidableEq, Repr

/-- OP = w[3:0] (30_encoding.md R79). -/
def opField (w : CmdWord) : BitVec 4 := w.extractLsb' 0 4

/-- D = w[15:8] (30_encoding.md R80). -/
def indexField (w : CmdWord) : Index := w.extractLsb' 8 8

/-- S = w[16] as a bank (30_encoding.md R81). -/
def bankField (w : CmdWord) : Bank := if w.getLsbD 16 then .den else .num

/-- The bits besides OP that opcode `op` uses (30_encoding.md R82, R84). -/
def usedBits (op : BitVec 4) : CmdWord :=
  if op = 4#4 ∨ op = 5#4 ∨ op = 8#4 then 0x0000FF00#32
  else if op = 7#4 then 0x0001FF00#32
  else 0#32

/-- The command of a word whose unused bits are 0, by its opcode; none for a reserved opcode (30_encoding.md R79). -/
def selectCommand (op : BitVec 4) (dist : Index) (bank : Bank) (d : Nat) : Option Instr :=
  match op.toNat with
  | 0 => some .nop
  | 1 => some (.compute d)
  | 2 => some (.pushx d)
  | 3 => some (.pushy d)
  | 4 => some (.getx dist)
  | 5 => some (.gety dist)
  | 6 => some .clear
  | 7 => some (.rdcoef bank dist)
  | 8 => some (.rdreg dist)
  | 9 => some (.clrstat d)
  | _ => none

/-- Decode (30_encoding.md R84): the reserved opcodes first, then the reserved bits, then the command. -/
def decode (w : CmdWord) (d : Nat) : Except DecodeError Instr :=
  match selectCommand (opField w) (indexField w) (bankField w) d with
  | none => .error .reservedOpcode
  | some i =>
    if w &&& ~~~(0x0000000F#32 ||| usedBits (opField w)) = 0#32 then .ok i
    else .error .reservedBits

/-- The S bit of a bank (30_encoding.md R81). -/
def bankBit : Bank → BitVec 1
  | .num => 0#1
  | .den => 1#1

/-- A word from its fields: OP in bits 3:0, D in 15:8, S in 16, every reserved bit 0 (30_encoding.md R78). -/
def packWord (s : BitVec 1) (dist : Index) (op : BitVec 4) : CmdWord :=
  0#15 ++ s ++ dist ++ 0#4 ++ op

/-- The command word of a command (30_encoding.md R86, R92). -/
def encodeWord : Instr → CmdWord
  | .nop => packWord 0#1 0#8 0#4
  | .compute _ => packWord 0#1 0#8 1#4
  | .pushx _ => packWord 0#1 0#8 2#4
  | .pushy _ => packWord 0#1 0#8 3#4
  | .getx dist => packWord 0#1 dist 4#4
  | .gety dist => packWord 0#1 dist 5#4
  | .clear => packWord 0#1 0#8 6#4
  | .rdcoef bank index => packWord (bankBit bank) index 7#4
  | .rdreg index => packWord 0#1 index 8#4
  | .clrstat _ => packWord 0#1 0#8 9#4

/-- The data operand of a command: 0 where the command ignores it (30_encoding.md R83). -/
def encodeData : Instr → Nat
  | .nop => 0
  | .compute d => d
  | .pushx d => d
  | .pushy d => d
  | .getx _ => 0
  | .gety _ => 0
  | .clear => 0
  | .rdcoef _ _ => 0
  | .rdreg _ => 0
  | .clrstat d => d

/-- The encoding of a command: its word and its data operand, one handshake (30_encoding.md R88). -/
def encode (i : Instr) : CmdWord × Nat := (encodeWord i, encodeData i)

/-- The mnemonics of 30_encoding.md R79. -/
inductive Mnemonic where
  | nop | compute | pushx | pushy | getx | gety | clear | rdcoef | rdreg | clrstat
deriving DecidableEq, Repr

/-- The mnemonic of a command. -/
def Instr.mnemonic : Instr → Mnemonic
  | .nop => .nop
  | .compute _ => .compute
  | .pushx _ => .pushx
  | .pushy _ => .pushy
  | .getx _ => .getx
  | .gety _ => .gety
  | .clear => .clear
  | .rdcoef _ _ => .rdcoef
  | .rdreg _ => .rdreg
  | .clrstat _ => .clrstat

/-- One row of the opcode table (30_encoding.md R86). -/
structure OpcodeRow where
  mnemonic : Mnemonic
  pattern : CmdWord
  mask : CmdWord
deriving DecidableEq, Repr

/-- The complete command set as match and mask (30_encoding.md R86, spec/opcode_table.json). -/
def opcodeTable : List OpcodeRow :=
  [⟨.nop, 0x00000000#32, 0xFFFFFFFF#32⟩,
   ⟨.compute, 0x00000001#32, 0xFFFFFFFF#32⟩,
   ⟨.pushx, 0x00000002#32, 0xFFFFFFFF#32⟩,
   ⟨.pushy, 0x00000003#32, 0xFFFFFFFF#32⟩,
   ⟨.getx, 0x00000004#32, 0xFFFF00FF#32⟩,
   ⟨.gety, 0x00000005#32, 0xFFFF00FF#32⟩,
   ⟨.clear, 0x00000006#32, 0xFFFFFFFF#32⟩,
   ⟨.rdcoef, 0x00000007#32, 0xFFFE00FF#32⟩,
   ⟨.rdreg, 0x00000008#32, 0xFFFF00FF#32⟩,
   ⟨.clrstat, 0x00000009#32, 0xFFFFFFFF#32⟩]

/-- A word selects a row exactly when (w and mask) = match (30_encoding.md R86). -/
def OpcodeRow.selects (r : OpcodeRow) (w : CmdWord) : Bool := w &&& r.mask == r.pattern

/-- The command word of `nbits` table bits, numbered as the table numbers them: bit 0 of `w` is w[0], and every bit above
`nbits` is 0 (30_encoding.md R78). -/
def tableWord (nbits w : Nat) : CmdWord := BitVec.ofNat 32 (w % 2 ^ nbits)

/-- What the decoder reads from a table word, with a data operand of zeros. -/
def decodeTableWord (nbits w : Nat) : Option Instr :=
  match decode (tableWord nbits w) 0 with
  | .ok i => some i
  | .error _ => none

end Sys2Proof
end

