-- ==== Sys2Proof/Machine/State.lean ====
section
/-! DEFINITION. The state of the core as plain data (10_state.md R20 to R36), the input pins of the edges to come
(30_encoding.md R71, R77), and the state after reset (R36). -/

namespace Sys2Proof.Machine

/-- A history buffer: its slots, slot 0 first, and the write cursor, the slot the next push overwrites
(10_state.md R21, R22). -/
structure History where
  slots : List Int
  wp : Nat
deriving DecidableEq, Repr

/-- A buffer of `n` slots at cold start: every slot 0, cursor 0 (10_state.md R36, 40_history_buffer.md R107). -/
def History.cold (n : Nat) : History := ⟨List.replicate n 0, 0⟩

/-- The response error codes; the code 3 is never produced and so has no name (30_encoding.md R85, 93 U14). -/
inductive RspErr where
  /-- 0: the command completed. -/
  | ok
  /-- 1: the command was refused as ILLEGAL. -/
  | illegal
  /-- 2: the command was refused as RANGE. -/
  | range
deriving DecidableEq, Repr

/-- A response r = (rsp_data, rsp_err, rsp_ovf) (30_encoding.md R85). -/
structure Response where
  data : Nat
  err : RspErr
  ovf : Bool
deriving DecidableEq, Repr

/-- The interface phase (10_state.md R34). `exec` also holds how many edges are left until the commit, the countdown of
T_EXEC (30_encoding.md R74; log 3). -/
inductive Phase where
  /-- INIT(k): `k` edges of post-reset initialisation to go. -/
  | init (k : Nat)
  /-- IDLE: no command is held. -/
  | idle
  /-- EXEC(w, d): the command is executing; it commits at the `left`-th edge from now. -/
  | exec (w : CmdWord) (d : Nat) (left : Nat)
  /-- RESP(r): the response waits for `rsp_ready`. -/
  | resp (r : Response)
deriving DecidableEq, Repr

/-- INIT with `k` edges to go; with none to go it is IDLE (10_state.md R34, R36). -/
def Phase.initFor : Nat → Phase
  | 0 => .idle
  | k + 1 => .init (k + 1)

/-- The values on the input pins at one rising edge (30_encoding.md R71). -/
structure Pins where
  rst : Bool
  cmdValid : Bool
  cmdWord : CmdWord
  cmdData : Nat
  rspReady : Bool
deriving DecidableEq, Repr

/-- Every input pin at 0: what the pins hold when the host does nothing. -/
def Pins.quiet : Pins := ⟨false, false, 0#32, 0, false⟩

/-- The machine. `cfg` is constant (10_state.md R24); `x` to `phase` are the tuple of R20; `host` and `execDraws` are the
model's own fields (logs 1 and 3). -/
structure State where
  /-- The configuration: parameters and coefficient store, never written (00_scope.md R5 to R12, 10_state.md R24). -/
  cfg : Config
  /-- X, the input history buffer (10_state.md R21). -/
  x : History
  /-- Y, the output history buffer (10_state.md R22). -/
  y : History
  /-- STATUS (10_state.md R27). -/
  status : StatusBits
  /-- LAST, signed 2·ACC_W bits (10_state.md R29). -/
  last : Int
  /-- OUTCODE, unsigned OUT_W bits (10_state.md R30). -/
  outcode : Nat
  /-- The interface phase (10_state.md R34). -/
  phase : Phase
  /-- MODEL's own: the input pins at the coming rising edges, the next edge first; quiet where it ends (log 1). -/
  host : List Pins
  /-- MODEL's own: how many execution times have been drawn from `Config.execDelay` (log 3). -/
  execDraws : Nat
deriving DecidableEq, Repr

/-- A fault would be a step after which the machine stops. The core has none: Step is total and never faults, hangs or
refuses, and every error is a next state (30_encoding.md R93, 60_exceptions.md R170), so the type has no constructor.
DEDUCED, safe (log 9). -/
inductive Fault where
deriving DecidableEq, Repr

/-- A refusal to give an instruction a meaning. -/
inductive Refusal where
  /-- Raised only by an arm of `exec` for an instruction without a meaning; no arm raises it now. Safe: nothing is claimed
  of such a step. -/
  | notModelled (mnemonic : String)
deriving DecidableEq, Repr

/-- Every element at its reset value, under a configuration, with given pins to come and draws made
(10_state.md R36, 70_reset_and_hazards.md R190, R191). -/
def State.cold (c : Config) (host : List Pins) (execDraws : Nat) : State where
  cfg := c
  x := History.cold c.n
  y := History.cold c.n
  status := 0#5
  last := 0
  outcode := 0
  phase := Phase.initFor c.tInit
  host := host
  execDraws := execDraws

/-- The machine right after reset (10_state.md R36), with REPO_CFG, a quiet host and no draw made: the three DESIGN
CHOICES of logs 1 to 3. -/
def State.reset : State := State.cold Config.repo [] 0

end Sys2Proof.Machine
end

