-- ==== Sys2Proof/Machine/Operands.lean ====
section
/-! DEFINITION. The conversion primitives of 00_scope.md R14 and the operand forms: how a command narrows its data operand
(30_encoding.md R83) and whether a distance or index has a meaning under the configuration (R80). -/

namespace Sys2Proof.Machine

/-- low_W(v) = v mod 2^W: the low W bits of v's two's-complement pattern, read unsigned (00_scope.md R14). -/
def lowBits (w : Nat) (v : Int) : Nat := (v % (2 : Int) ^ w).toNat

/-- wrap_W(v): the integer of [-2^(W-1), 2^(W-1)) congruent to v modulo 2^W, for W at least 1 (00_scope.md R14). -/
def wrapTo (w : Nat) (v : Int) : Int :=
  let r := v % (2 : Int) ^ w
  if r < (2 : Int) ^ (w - 1) then r else r - (2 : Int) ^ w

/-- tdiv(a, b) for b not 0: the quotient rounded toward zero, sign(a)·sign(b)·floor(|a| / |b|) (00_scope.md R14). -/
def tdiv (a b : Int) : Int := a.sign * b.sign * ((a.natAbs / b.natAbs : Nat) : Int)

/-- mod_N(v): the Euclidean residue in [0, N) (00_scope.md R14). -/
def modN (n : Nat) (v : Int) : Nat := (v % (n : Int)).toNat

/-- The raw sample of COMPUTE and PUSHX: sext_IN_W(d[IN_W-1:0]) (30_encoding.md R83, 41_engine.md R121). -/
def rawSample (c : Config) (d : Nat) : Int := wrapTo c.inW d

/-- The value of PUSHY: wrap_ACC_W(d) (30_encoding.md R83). -/
def pushValue (c : Config) (d : Nat) : Int := wrapTo c.accW d

/-- The clear mask of CLRSTAT: d[3:0] (30_encoding.md R83). -/
def clearMask (d : Nat) : BitVec 4 := BitVec.ofNat 4 d

/-- What the `cmd_data` port carries of a value: its low ACC_W bits (30_encoding.md R71, R92). -/
def portData (c : Config) (d : Nat) : Nat := d % 2 ^ c.accW

/-- A distance of GETX and GETY the configuration gives a meaning: D <= N - 1 (40_history_buffer.md R104, R105). -/
def distanceInRange (c : Config) (dist : Index) : Bool := decide (dist.toNat < c.n)

/-- A tap of RDCOEF the configuration stores: NUM[0..N-1] or DEN[1..N-1] (42_control.md R152). -/
def tapInRange (c : Config) : Bank → Index → Bool
  | .num, index => decide (index.toNat < c.n)
  | .den, index => decide (index.toNat ≠ 0 ∧ index.toNat < c.n)

end Sys2Proof.Machine
end

