-- ==== Sys2Proof/Machine/Flags.lean ====
section
/-! DEFINITION. STATUS: its named bits, what sets and clears them (10_state.md R27, R28), and the two overflow conditions of
COMPUTE (41_engine.md R125, R128). -/

namespace Sys2Proof.Machine

/-- STATUS.ILL, bit 0 (10_state.md R27). -/
def flagIll (st : StatusBits) : Bool := st.getLsbD 0

/-- STATUS.RNG, bit 1 (10_state.md R27). -/
def flagRng (st : StatusBits) : Bool := st.getLsbD 1

/-- STATUS.ACCOVF, bit 2 (10_state.md R27). -/
def flagAccovf (st : StatusBits) : Bool := st.getLsbD 2

/-- STATUS.OUTOVF, bit 3 (10_state.md R27). -/
def flagOutovf (st : StatusBits) : Bool := st.getLsbD 3

/-- STATUS.LASTOVF, bit 4 (10_state.md R27, R28). -/
def flagLastovf (st : StatusBits) : Bool := st.getLsbD 4

/-- STATUS.ILL <- 1 (60_exceptions.md R172). -/
def setIll (st : StatusBits) : StatusBits := st ||| 0x01#5

/-- STATUS.RNG <- 1 (60_exceptions.md R172). -/
def setRng (st : StatusBits) : StatusBits := st ||| 0x02#5

/-- if S != acc: STATUS.ACCOVF <- 1 (41_engine.md R125). -/
def noteAccovf (st : StatusBits) (wrapped : Bool) : StatusBits :=
  if wrapped then st ||| 0x04#5 else st

/-- if ovf: STATUS.OUTOVF <- 1 (41_engine.md R128). -/
def noteOutovf (st : StatusBits) (ovf : Bool) : StatusBits :=
  if ovf then st ||| 0x08#5 else st

/-- STATUS.LASTOVF <- ovf, written by every COMPUTE (10_state.md R28, 41_engine.md R128). -/
def writeLastovf (st : StatusBits) (ovf : Bool) : StatusBits :=
  if ovf then st ||| 0x10#5 else st &&& 0x0F#5

/-- STATUS[3:0] <- STATUS[3:0] and not m; LASTOVF is not cleared (42_control.md R154). -/
def clearSticky (st : StatusBits) (m : BitVec 4) : StatusBits :=
  st &&& ~~~(0#1 ++ m)

/-- The STATUS a COMPUTE leaves, in the pseudocode's order (41_engine.md R120). -/
def computeStatus (st : StatusBits) (wrapped ovf : Bool) : StatusBits :=
  noteOutovf (writeLastovf (noteAccovf st wrapped) ovf) ovf

/-- The accumulator overflow condition: the exact sum differs from the wrapped one (41_engine.md R125). -/
def accWrapped (c : Config) (sum : Int) : Bool := decide (sum ≠ wrapTo c.accW sum)

/-- The overflow indicator ovf = (q >= 2^OUT_W), on the unmasked signed q (41_engine.md R128). -/
def outOverflow (c : Config) (q : Int) : Bool := decide ((2 : Int) ^ c.outW ≤ q)

/-- `alert` = ILL or RNG or ACCOVF (30_encoding.md R72, 60_exceptions.md R177). -/
def alertLine (st : StatusBits) : Bool := flagIll st || flagRng st || flagAccovf st

end Sys2Proof.Machine
end

