-- ==== Sys2Proof/Machine/Ops.lean ====
section
/-! DEFINITION. The named operations over the state: the history primitives (20_memory.md R52, R53), the coefficient store
(10_state.md R24), the readable registers (R27 to R33), ending a command normally (00_scope.md R15), ending it refused
(60_exceptions.md R172; the core has no trap, so this is the whole of taking an error, and there is no return from
one, R178, R179), reset (70_reset_and_hazards.md R190) and taking the next edge's pins. -/

namespace Sys2Proof.Machine

/-- HistPush(B, v) for a buffer of `n` slots: write the slot at the cursor, then advance the cursor modulo `n`
(20_memory.md R52). -/
def History.push (n : Nat) (b : History) (v : Int) : History :=
  ⟨b.slots.set b.wp v, modN n ((b.wp : Int) + 1)⟩

/-- HistGet(B, D) for a buffer of `n` slots: slot mod_N(wp - 1 - D) (20_memory.md R53, 90_conflicts.md C1). A slot past the
end of the list, which no well-formed buffer has, reads as 0 (log 7). -/
def History.get (n : Nat) (b : History) (dist : Nat) : Int :=
  b.slots.getD (modN n ((b.wp : Int) - 1 - (dist : Int))) 0

/-- NUM[i], for 0 <= i <= N-1 (00_scope.md R9). -/
def numTap (c : Config) (i : Nat) : Int := c.num.getD i 0

/-- DEN[i], for 1 <= i <= N-1; DEN[0] is not stored (00_scope.md R9). -/
def denTap (c : Config) (i : Nat) : Int := c.den.getD (i - 1) 0

/-- A tap by bank and index (42_control.md R152). -/
def coefficient (c : Config) : Bank → Index → Int
  | .num, index => numTap c index.toNat
  | .den, index => denTap c index.toNat

/-- Σ f(i) for i in 0 .. k-1, exact (41_engine.md R124). -/
def sumBelow (f : Nat → Int) : Nat → Int
  | 0 => 0
  | k + 1 => sumBelow f k + f k

/-- The exact sum S: the feed-forward products, then the feedback products, ADDED (41_engine.md R122 to R124). -/
def tapSum (c : Config) (x y : History) : Int :=
  sumBelow (fun i => numTap c i * x.get c.n i) c.n
    + sumBelow (fun j => denTap c (j + 1) * y.get c.n (j + 1)) (c.n - 1)

/-- CONFIG: LOG2N, IN_W, OUT_W, ACC_W in one byte each and VERSION = 1 in bits 39:32 (10_state.md R31). -/
def configValue (c : Config) : Nat :=
  c.log2n + c.inW * 2 ^ 8 + c.outW * 2 ^ 16 + c.accW * 2 ^ 24 + 1 * 2 ^ 32

/-- CURSOR: the pattern with Y.wp[7:0] above X.wp[7:0] (10_state.md R32). -/
def cursorValue (x y : History) : Nat := y.wp % 2 ^ 8 * 2 ^ 8 + x.wp % 2 ^ 8

/-- The value RDREG responds for a register index, none where no register has it (42_control.md R153). -/
def registerValue (s : State) (index : Nat) : Option Int :=
  match index with
  | 0 => some s.status.toNat
  | 1 => some (configValue s.cfg)
  | 2 => some (cursorValue s.x s.y)
  | 3 => some (lowBits s.cfg.accW s.last)
  | 4 => some (lowBits (2 * s.cfg.accW) s.last / 2 ^ s.cfg.accW : Nat)
  | 5 => some s.cfg.snum
  | 6 => some s.cfg.sden
  | 7 => some s.outcode
  | _ => none

/-- respond(v, ovf): the command ends with (low_ACC_W(v), OK, ovf), which the interface presents
(00_scope.md R15, 30_encoding.md R74). -/
def State.respond (s : State) (v : Int) (ovf : Bool) : State :=
  { s with phase := .resp ⟨lowBits s.cfg.accW v, .ok, ovf⟩ }

/-- The two errors a command can end with (60_exceptions.md R171). -/
inductive CmdError where
  | illegal
  | range
deriving DecidableEq, Repr

/-- The rsp_err of an error (60_exceptions.md R171). -/
def errCode : CmdError → RspErr
  | .illegal => .illegal
  | .range => .range

/-- The STATUS an error leaves (60_exceptions.md R171, R172). -/
def errStatus (st : StatusBits) : CmdError → StatusBits
  | .illegal => setIll st
  | .range => setRng st

/-- raise ILLEGAL() and raise RANGE(): the STATUS bit is set and the response is (0, code, 0); no other state changes
(60_exceptions.md R172). -/
def State.raise (s : State) (e : CmdError) : State :=
  { s with status := errStatus s.status e, phase := .resp ⟨0, errCode e, false⟩ }

/-- The effect of one edge with `rst` = 1: every element takes its reset value; the constants and the model's own fields
stay (70_reset_and_hazards.md R190, R193, R195). -/
def State.applyReset (s : State) : State := State.cold s.cfg s.host s.execDraws

/-- The pins at the coming edge; quiet where the list has ended (log 1). -/
def State.pins (s : State) : Pins := s.host.headD Pins.quiet

/-- The state with the coming edge's pins taken off the list (log 1). -/
def State.takePins (s : State) : State := { s with host := s.host.tail }

/-- Acceptance: the core latches `cmd_word` and `cmd_data`, enters EXEC and draws T_EXEC
(30_encoding.md R73, R74; log 3). -/
def State.accept (s : State) (w : CmdWord) (d : Nat) : State :=
  { s with
    phase := .exec w (portData s.cfg d) (Config.execTime s.execDraws w (portData s.cfg d))
    execDraws := s.execDraws + 1 }

end Sys2Proof.Machine
end

