-- ==== Sys2Proof/Machine/Buffer.lean ====
section
/-! DEFINITION. The history-buffer commands PUSHX, PUSHY, GETX, GETY and CLEAR (40_history_buffer.md). -/

namespace Sys2Proof.Machine

/-- PUSHX (40_history_buffer.md R101): X gets the raw sample; the response is the stored value. -/
def execPushx (d : Nat) (s : State) : Host.Outcome State Fault Refusal :=
  let v := rawSample s.cfg d
  .next ({ s with x := s.x.push s.cfg.n v }.respond v false)

/-- PUSHY (40_history_buffer.md R102): Y gets the signed operand; the response is the stored value. -/
def execPushy (d : Nat) (s : State) : Host.Outcome State Fault Refusal :=
  let v := pushValue s.cfg d
  .next ({ s with y := s.y.push s.cfg.n v }.respond v false)

/-- GETX (40_history_buffer.md R104): RANGE for D > N-1, else the X entry at distance D. -/
def execGetx (dist : Index) (s : State) : Host.Outcome State Fault Refusal :=
  if distanceInRange s.cfg dist then .next (s.respond (s.x.get s.cfg.n dist.toNat) false)
  else .next (s.raise .range)

/-- GETY (40_history_buffer.md R105): RANGE for D > N-1, else the Y entry at distance D. -/
def execGety (dist : Index) (s : State) : Host.Outcome State Fault Refusal :=
  if distanceInRange s.cfg dist then .next (s.respond (s.y.get s.cfg.n dist.toNat) false)
  else .next (s.raise .range)

/-- CLEAR (40_history_buffer.md R107): both buffers at cold start; STATUS, LAST and OUTCODE stay. -/
def execClear (s : State) : Host.Outcome State Fault Refusal :=
  .next ({ s with x := History.cold s.cfg.n, y := History.cold s.cfg.n }.respond 0 false)

end Sys2Proof.Machine
end

