-- ==== Sys2Proof/Machine/Control.lean ====
section
/-! DEFINITION. The control and inspection commands NOP, RDCOEF, RDREG and CLRSTAT (42_control.md). -/

namespace Sys2Proof.Machine

/-- NOP (42_control.md R150). -/
def execNop (s : State) : Host.Outcome State Fault Refusal :=
  .next (s.respond 0 false)

/-- RDCOEF (42_control.md R152): RANGE for a tap that is not stored, else the coefficient. -/
def execRdcoef (bank : Bank) (index : Index) (s : State) : Host.Outcome State Fault Refusal :=
  if tapInRange s.cfg bank index then .next (s.respond (coefficient s.cfg bank index) false)
  else .next (s.raise .range)

/-- RDREG (42_control.md R153): the register's value, or RANGE for an index of 8 and above. -/
def execRdreg (index : Index) (s : State) : Host.Outcome State Fault Refusal :=
  match registerValue s index.toNat with
  | some v => .next (s.respond v false)
  | none => .next (s.raise .range)

/-- CLRSTAT (42_control.md R154): respond the old STATUS and clear the sticky bits the mask names. -/
def execClrstat (d : Nat) (s : State) : Host.Outcome State Fault Refusal :=
  .next ({ s with status := clearSticky s.status (clearMask d) }.respond s.status.toNat false)

end Sys2Proof.Machine
end

