-- ==== Sys2Proof/Machine/Engine.lean ====
section
/-! DEFINITION. The difference-equation engine: COMPUTE (41_engine.md R120 to R130). -/

namespace Sys2Proof.Machine

/-- q = tdiv(acc · SNUM, SDEN), the product exact (41_engine.md R127). -/
def scaledOutput (c : Config) (acc : Int) : Int := tdiv (acc * c.snum) c.sden

/-- The state a COMPUTE leaves once its exact sum is known, X being pushed already: Y gets the wrapped sum, LAST and OUTCODE
the scaled output, STATUS the two overflows, and the response is q (41_engine.md R125 to R130). -/
def State.commitSum (s : State) (sum : Int) : State :=
  let acc := wrapTo s.cfg.accW sum
  let q := scaledOutput s.cfg acc
  let ovf := outOverflow s.cfg q
  { s with
    y := s.y.push s.cfg.n acc
    status := computeStatus s.status (accWrapped s.cfg sum) ovf
    last := q
    outcode := lowBits s.cfg.outW q }.respond q ovf

/-- COMPUTE (41_engine.md R120): push the raw sample into X, sum the taps over the new X and the old Y, commit the sum. -/
def execCompute (d : Nat) (s : State) : Host.Outcome State Fault Refusal :=
  let x := s.x.push s.cfg.n (rawSample s.cfg d)
  .next ({ s with x := x }.commitSum (tapSum s.cfg x s.y))

end Sys2Proof.Machine
end

