-- ==== Sys2Proof/Machine/Dispatch.lean ====
section
/-! DEFINITION. The meaning of every command: one arm per constructor of Instr. The next state of a command is the state
at its commit edge, with the response in phase RESP (30_encoding.md R74, R93). -/

namespace Sys2Proof.Machine

def exec (i : Instr) (s : State) : Host.Outcome State Fault Refusal :=
  match i with
  | .nop => Sys2Proof.Machine.execNop s
  | .compute d => Sys2Proof.Machine.execCompute d s
  | .pushx d => Sys2Proof.Machine.execPushx d s
  | .pushy d => Sys2Proof.Machine.execPushy d s
  | .getx dist => Sys2Proof.Machine.execGetx dist s
  | .gety dist => Sys2Proof.Machine.execGety dist s
  | .clear => Sys2Proof.Machine.execClear s
  | .rdcoef bank index => Sys2Proof.Machine.execRdcoef bank index s
  | .rdreg index => Sys2Proof.Machine.execRdreg index s
  | .clrstat d => Sys2Proof.Machine.execClrstat d s

end Sys2Proof.Machine
end

