-- ==== Sys2Proof/Machine/Ports.lean ====
section
/-! DEFINITION. The output ports as functions of the state and of `rst` (30_encoding.md R71, R72). They are combinational:
they show the state before the coming edge, with the `rst` of that edge. -/

namespace Sys2Proof.Machine

/-- The values of the output ports (30_encoding.md R71). -/
structure Ports where
  cmdReady : Bool
  busy : Bool
  rspValid : Bool
  rspData : Nat
  rspErr : BitVec 2
  rspOvf : Bool
  outCode : Nat
  outOvf : Bool
  alert : Bool
deriving DecidableEq, Repr

/-- The code `rsp_err` carries (30_encoding.md R85). -/
def rspErrCode : RspErr → BitVec 2
  | .ok => 0#2
  | .illegal => 1#2
  | .range => 2#2

/-- phase == IDLE. -/
def Phase.isIdle : Phase → Bool
  | .init _ => false
  | .idle => true
  | .exec _ _ _ => false
  | .resp _ => false

/-- The response on the response port: r in RESP(r), none in the other phases (30_encoding.md R72). -/
def Phase.response : Phase → Option Response
  | .init _ => none
  | .idle => none
  | .exec _ _ _ => none
  | .resp r => some r

/-- The response port's fields: r in RESP(r), (0, 0, 0) otherwise (30_encoding.md R72). -/
def Phase.shownResponse (p : Phase) : Response := p.response.getD ⟨0, .ok, false⟩

/-- The output ports (30_encoding.md R72). -/
def State.ports (s : State) : Ports where
  cmdReady := s.phase.isIdle && !s.pins.rst
  busy := !s.phase.isIdle || s.pins.rst
  rspValid := s.phase.response.isSome
  rspData := s.phase.shownResponse.data
  rspErr := rspErrCode s.phase.shownResponse.err
  rspOvf := s.phase.shownResponse.ovf
  outCode := s.outcode
  outOvf := flagLastovf s.status
  alert := alertLine s.status

end Sys2Proof.Machine
end

