-- ==== Sys2Proof/Machine/Edge.lean ====
section
/-! DEFINITION. The architectural step on a command word (30_encoding.md R93) and one rising edge of `clk`
(30_encoding.md R70 to R76, 70_reset_and_hazards.md R190 to R193). -/

namespace Sys2Proof.Machine

/-- Step(s, w, d): decode first; an ILLEGAL word is refused, any other runs its command; the response is in phase RESP
(30_encoding.md R84, R93). -/
def runCommand (w : CmdWord) (d : Nat) (s : State) : Host.Outcome State Fault Refusal :=
  match decode w d with
  | .ok i => exec i s
  | .error _ => .next (s.raise .illegal)

/-- What an edge with `rst` = 0 does in each phase: INIT counts down, IDLE accepts a valid command, EXEC counts down and
commits at its last edge, RESP hands over when `rsp_ready` = 1 (30_encoding.md R73 to R76, 70_reset_and_hazards.md R191).
`s` is the state with the edge's pins `p` taken off. -/
def phaseEdge (p : Pins) (s : State) : Host.Outcome State Fault Refusal :=
  match s.phase with
  | .init k => .next { s with phase := Phase.initFor (k - 1) }
  | .idle => .next (if p.cmdValid then s.accept p.cmdWord p.cmdData else s)
  | .exec w d left =>
    if left ≤ 1 then runCommand w d s else .next { s with phase := .exec w d (left - 1) }
  | .resp _ => .next (if p.rspReady then { s with phase := .idle } else s)

/-- One rising edge of `clk`: `rst` = 1 resets whatever the phase, else the phase decides
(30_encoding.md R70, 70_reset_and_hazards.md R190, R193). -/
def clockEdge (s : State) : Host.Outcome State Fault Refusal :=
  if s.pins.rst then .next s.takePins.applyReset else phaseEdge s.pins s.takePins

/-- The coming edge's pins with `rst` = 0, the rest as it was. -/
def State.releaseReset (s : State) : State :=
  { s with
    host := match s.host with
      | [] => []
      | p :: rest => { p with rst := false } :: rest }

/-- The state in which a command has been accepted and commits at the very next edge, `rst` being 0 there (log 4). -/
def State.placeCommand (s : State) (w : CmdWord) (d : Nat) : State :=
  { s.releaseReset with phase := .exec w d 1 }

end Sys2Proof.Machine
end

