-- ==== Sys2Proof/Machine/Step.lean ====
section
/-! DEFINITION. The step of the machine, one rising edge of `clk`, and where the next command to run is placed. -/

namespace Sys2Proof.Machine

/-- One step is one rising edge of `clk` (30_encoding.md R70). -/
def step (s : State) : Host.Outcome State Fault Refusal := clockEdge s

/-- `s` with the table word `w` held in EXEC, data operand 0, committing at the next step (log 4): the core fetches
nothing (00_scope.md R2), so the accepted command is where its next instruction stands. -/
def State.withFetchWord (s : State) (nbits w : Nat) : State := s.placeCommand (tableWord nbits w) 0

end Sys2Proof.Machine
end

