-- ==== Sys2Proof/Laws/Config.lean ====
section
/-! SUPPORT. What a legal configuration guarantees, one bound a lemma (00_scope.md R5 to R10, R12). -/

namespace Sys2Proof

section
variable (c : Config)

theorem Config.log2n_le : c.log2n ≤ 8 := c.legal.1
theorem Config.accW_bounds : 64 ≤ c.accW ∧ c.accW ≤ 128 := c.legal.2.1
theorem Config.inW_bounds : 2 ≤ c.inW ∧ c.inW ≤ 64 := c.legal.2.2.1
theorem Config.outW_bounds : 1 ≤ c.outW ∧ c.outW ≤ c.accW := c.legal.2.2.2.1
theorem Config.tInit_le : c.tInit ≤ c.n := c.legal.2.2.2.2.1
theorem Config.num_length : c.num.length = c.n := c.legal.2.2.2.2.2.1
theorem Config.den_length : c.den.length = c.n - 1 := c.legal.2.2.2.2.2.2.1
theorem Config.num_inSigned : ∀ v ∈ c.num, InSigned c.accW v := c.legal.2.2.2.2.2.2.2.1
theorem Config.den_inSigned : ∀ v ∈ c.den, InSigned c.accW v := c.legal.2.2.2.2.2.2.2.2.1
theorem Config.snum_inSigned : InSigned c.accW c.snum := c.legal.2.2.2.2.2.2.2.2.2.1
theorem Config.sden_inSigned : InSigned c.accW c.sden := c.legal.2.2.2.2.2.2.2.2.2.2.1
theorem Config.sden_ne_zero : c.sden ≠ 0 := c.legal.2.2.2.2.2.2.2.2.2.2.2

theorem Config.n_pos : 0 < c.n := by
  unfold Params.n; positivity

theorem Config.n_le : c.n ≤ 256 := by
  have h := Nat.pow_le_pow_right (n := 2) (by norm_num) c.log2n_le
  simpa [Params.n] using h

end

end Sys2Proof
end

