-- ==== Sys2Proof/Laws/Operands.lean ====
section
/-! SUPPORT. What the conversion primitives of 00_scope.md R14 are: ranges, congruences, and their equality with the
library's two's-complement patterns. -/

namespace Sys2Proof.Machine

theorem two_pow_pos_int (w : Nat) : (0 : Int) < 2 ^ w := by positivity

theorem two_pow_split (w : Nat) (hw : 1 ≤ w) : (2 : Int) ^ w = 2 ^ (w - 1) + 2 ^ (w - 1) := by
  obtain ⟨k, rfl⟩ : ∃ k, w = k + 1 := ⟨w - 1, by omega⟩
  simp [pow_succ]; ring

theorem lowBits_cast (w : Nat) (v : Int) : (lowBits w v : Int) = v % 2 ^ w := by
  have := Int.emod_nonneg v (two_pow_pos_int w).ne'
  simp [lowBits, Int.toNat_of_nonneg this]

theorem lowBits_lt (w : Nat) (v : Int) : lowBits w v < 2 ^ w := by
  have h1 := lowBits_cast w v
  have h2 := Int.emod_lt_of_pos v (two_pow_pos_int w)
  have h3 : ((2 ^ w : Nat) : Int) = 2 ^ w := by push_cast; rfl
  omega

/-- low_W(v) is the library's W-bit pattern of v. -/
theorem lowBits_eq_ofInt (w : Nat) (v : Int) : lowBits w v = (BitVec.ofInt w v).toNat := by
  rw [BitVec.toNat_ofInt]; simp [lowBits]

theorem lowBits_natCast (w d : Nat) : lowBits w (d : Int) = d % 2 ^ w := by
  have h := lowBits_cast w d
  have h2 : ((d % 2 ^ w : Nat) : Int) = (d : Int) % 2 ^ w := by push_cast; rfl
  omega

/-- A non-negative value below 2^W is its own pattern. -/
theorem lowBits_of_lt (w : Nat) (d : Nat) (h : d < 2 ^ w) : lowBits w (d : Int) = d := by
  rw [lowBits_natCast, Nat.mod_eq_of_lt h]

theorem wrapTo_inSigned (w : Nat) (hw : 1 ≤ w) (v : Int) : InSigned w (wrapTo w v) := by
  have h0 := Int.emod_nonneg v (two_pow_pos_int w).ne'
  have h1 := Int.emod_lt_of_pos v (two_pow_pos_int w)
  have h2 := two_pow_split w hw
  have h3 := two_pow_pos_int (w - 1)
  unfold InSigned wrapTo
  simp only
  split <;> constructor <;> omega

/-- wrap_W(v) is congruent to v modulo 2^W. -/
theorem wrapTo_emod (w : Nat) (v : Int) : wrapTo w v % 2 ^ w = v % 2 ^ w := by
  unfold wrapTo
  simp only
  split
  · simp
  · simp

/-- Two values of the signed W-bit range that are congruent modulo 2^W are equal. -/
theorem inSigned_unique (w : Nat) (hw : 1 ≤ w) (a b : Int) (ha : InSigned w a) (hb : InSigned w b)
    (h : a % 2 ^ w = b % 2 ^ w) : a = b := by
  have h2 := two_pow_split w hw
  obtain ⟨k, hk⟩ : (2 : Int) ^ w ∣ a - b := Int.ModEq.dvd (Int.ModEq.symm h)
  have h3 := two_pow_pos_int w
  obtain ⟨ha1, ha2⟩ := ha
  obtain ⟨hb1, hb2⟩ := hb
  have hk0 : k = 0 := by
    by_contra hne
    rcases lt_or_gt_of_ne hne with hlt | hgt
    · nlinarith
    · nlinarith
  subst hk0
  simp at hk
  omega

/-- A value in range is not changed by wrapping. -/
theorem wrapTo_of_inSigned (w : Nat) (hw : 1 ≤ w) (v : Int) (h : InSigned w v) : wrapTo w v = v :=
  inSigned_unique w hw _ _ (wrapTo_inSigned w hw v) h (wrapTo_emod w v)

/-- Wrapping changes exactly the values outside the range (41_engine.md R125). -/
theorem wrapTo_eq_iff (w : Nat) (hw : 1 ≤ w) (v : Int) : wrapTo w v = v ↔ InSigned w v :=
  ⟨fun h => h ▸ wrapTo_inSigned w hw v, wrapTo_of_inSigned w hw v⟩

/-- wrap_W(v) is the signed reading of the library's W-bit pattern of v. -/
theorem wrapTo_eq_ofInt (w : Nat) (hw : 1 ≤ w) (v : Int) : wrapTo w v = (BitVec.ofInt w v).toInt := by
  have h2 := two_pow_split w hw
  rw [BitVec.toInt_ofInt, Int.bmod_def]
  unfold wrapTo
  have h3 : ((2 ^ w : Nat) : Int) = 2 ^ w := by push_cast; rfl
  simp only [h3]
  have h4 : ((2 : Int) ^ w + 1) / 2 = 2 ^ (w - 1) := by omega
  rw [h4]

theorem wrapTo_congr (w : Nat) (a b : Int) (h : a % 2 ^ w = b % 2 ^ w) : wrapTo w a = wrapTo w b := by
  unfold wrapTo; rw [h]

theorem lowBits_congr (w : Nat) (a b : Int) (h : a % 2 ^ w = b % 2 ^ w) : lowBits w a = lowBits w b := by
  unfold lowBits; rw [h]

/-- Wrapping does not change the pattern: the response of PUSHY is its operand (40_history_buffer.md R102). -/
theorem lowBits_wrapTo (w : Nat) (v : Int) : lowBits w (wrapTo w v) = lowBits w v :=
  lowBits_congr w _ _ (wrapTo_emod w v)

/-- The low bits of the low bits (41_engine.md R130). -/
theorem lowBits_mod (k w : Nat) (h : k ≤ w) (v : Int) : lowBits w v % 2 ^ k = lowBits k v := by
  have h1 := lowBits_cast w v
  have h2 := lowBits_cast k v
  have h3 : ((lowBits w v % 2 ^ k : Nat) : Int) = v % 2 ^ w % 2 ^ k := by push_cast; rw [h1]
  rw [Int.emod_emod_of_dvd v (pow_dvd_pow 2 h)] at h3
  omega

/-- tdiv is the library's division truncated toward zero. -/
theorem tdiv_eq (a b : Int) : tdiv a b = Int.tdiv a b := by
  have key : ∀ k : Nat, |(k : Int) + 1| = k + 1 := fun k => abs_of_nonneg (by positivity)
  unfold tdiv
  rcases a with a | a <;> rcases b with b | b
  · rcases a with _ | a <;> rcases b with _ | b <;> simp [Int.tdiv, Int.sign, key]
  · rcases a with _ | a <;> simp [Int.tdiv, Int.sign, key]
  · rcases b with _ | b <;> simp [Int.tdiv, Int.sign, key]
  · simp [Int.tdiv, Int.sign]

theorem tdiv_natAbs (a b : Int) : (tdiv a b).natAbs = a.natAbs / b.natAbs := by
  rw [tdiv_eq, Int.natAbs_tdiv]; rfl

theorem modN_lt (n : Nat) (hn : 0 < n) (v : Int) : modN n v < n := by
  have h1 : (0 : Int) < n := by exact_mod_cast hn
  have h2 := Int.emod_nonneg v h1.ne'
  have h3 := Int.emod_lt_of_pos v h1
  unfold modN; omega

theorem modN_cast (n : Nat) (hn : 0 < n) (v : Int) : (modN n v : Int) = v % n := by
  have h1 : (n : Int) ≠ 0 := by exact_mod_cast hn.ne'
  have h2 := Int.emod_nonneg v h1
  simp [modN, Int.toNat_of_nonneg h2]

/-- The advance of a cursor (20_memory.md R52). -/
theorem modN_succ (n wp : Nat) : modN n ((wp : Int) + 1) = (wp + 1) % n := by
  have h : ((wp : Int) + 1) % (n : Int) = ((wp + 1) % n : Nat) := by push_cast; rfl
  unfold modN
  rw [h, Int.toNat_natCast]

/-- The slot of a distance in natural numbers (20_memory.md R53). -/
theorem modN_back (n wp dist : Nat) (h : dist < n) :
    modN n ((wp : Int) - 1 - dist) = (wp + (n - 1 - dist)) % n := by
  have h1 : (wp : Int) - 1 - dist = ((wp + (n - 1 - dist) : Nat) : Int) - n := by omega
  unfold modN
  rw [h1, Int.sub_emod_right, ← Int.natCast_emod, Int.toNat_natCast]

end Sys2Proof.Machine
end

