-- ==== Sys2Proof/Laws/State.lean ====
section
/-! SUPPORT. What every named update does to every field of State: one lemma per field per update, true by unfolding, so
that no later proof unfolds a record update. -/

namespace Sys2Proof.Machine

section
variable (s : State) (v : Int) (b : Bool) (e : CmdError) (w : CmdWord) (d : Nat)
  (c : Config) (h : List Pins) (n : Nat) (sum : Int)

@[simp] theorem State.respond_cfg : (s.respond v b).cfg = s.cfg := rfl
@[simp] theorem State.respond_x : (s.respond v b).x = s.x := rfl
@[simp] theorem State.respond_y : (s.respond v b).y = s.y := rfl
@[simp] theorem State.respond_status : (s.respond v b).status = s.status := rfl
@[simp] theorem State.respond_last : (s.respond v b).last = s.last := rfl
@[simp] theorem State.respond_outcode : (s.respond v b).outcode = s.outcode := rfl
@[simp] theorem State.respond_phase :
    (s.respond v b).phase = .resp ⟨lowBits s.cfg.accW v, .ok, b⟩ := rfl
@[simp] theorem State.respond_host : (s.respond v b).host = s.host := rfl
@[simp] theorem State.respond_execDraws : (s.respond v b).execDraws = s.execDraws := rfl

@[simp] theorem State.raise_cfg : (s.raise e).cfg = s.cfg := rfl
@[simp] theorem State.raise_x : (s.raise e).x = s.x := rfl
@[simp] theorem State.raise_y : (s.raise e).y = s.y := rfl
@[simp] theorem State.raise_status : (s.raise e).status = errStatus s.status e := rfl
@[simp] theorem State.raise_last : (s.raise e).last = s.last := rfl
@[simp] theorem State.raise_outcode : (s.raise e).outcode = s.outcode := rfl
@[simp] theorem State.raise_phase : (s.raise e).phase = .resp ⟨0, errCode e, false⟩ := rfl
@[simp] theorem State.raise_host : (s.raise e).host = s.host := rfl
@[simp] theorem State.raise_execDraws : (s.raise e).execDraws = s.execDraws := rfl

@[simp] theorem State.takePins_cfg : s.takePins.cfg = s.cfg := rfl
@[simp] theorem State.takePins_x : s.takePins.x = s.x := rfl
@[simp] theorem State.takePins_y : s.takePins.y = s.y := rfl
@[simp] theorem State.takePins_status : s.takePins.status = s.status := rfl
@[simp] theorem State.takePins_last : s.takePins.last = s.last := rfl
@[simp] theorem State.takePins_outcode : s.takePins.outcode = s.outcode := rfl
@[simp] theorem State.takePins_phase : s.takePins.phase = s.phase := rfl
@[simp] theorem State.takePins_host : s.takePins.host = s.host.tail := rfl
@[simp] theorem State.takePins_execDraws : s.takePins.execDraws = s.execDraws := rfl

@[simp] theorem State.accept_cfg : (s.accept w d).cfg = s.cfg := rfl
@[simp] theorem State.accept_x : (s.accept w d).x = s.x := rfl
@[simp] theorem State.accept_y : (s.accept w d).y = s.y := rfl
@[simp] theorem State.accept_status : (s.accept w d).status = s.status := rfl
@[simp] theorem State.accept_last : (s.accept w d).last = s.last := rfl
@[simp] theorem State.accept_outcode : (s.accept w d).outcode = s.outcode := rfl
@[simp] theorem State.accept_phase :
    (s.accept w d).phase =
      .exec w (portData s.cfg d) (Config.execTime s.execDraws w (portData s.cfg d)) := rfl
@[simp] theorem State.accept_host : (s.accept w d).host = s.host := rfl
@[simp] theorem State.accept_execDraws : (s.accept w d).execDraws = s.execDraws + 1 := rfl

@[simp] theorem State.cold_cfg : (State.cold c h n).cfg = c := rfl
@[simp] theorem State.cold_x : (State.cold c h n).x = History.cold c.n := rfl
@[simp] theorem State.cold_y : (State.cold c h n).y = History.cold c.n := rfl
@[simp] theorem State.cold_status : (State.cold c h n).status = 0#5 := rfl
@[simp] theorem State.cold_last : (State.cold c h n).last = 0 := rfl
@[simp] theorem State.cold_outcode : (State.cold c h n).outcode = 0 := rfl
@[simp] theorem State.cold_phase : (State.cold c h n).phase = Phase.initFor c.tInit := rfl
@[simp] theorem State.cold_host : (State.cold c h n).host = h := rfl
@[simp] theorem State.cold_execDraws : (State.cold c h n).execDraws = n := rfl

@[simp] theorem State.commitSum_cfg : (s.commitSum sum).cfg = s.cfg := rfl
@[simp] theorem State.commitSum_x : (s.commitSum sum).x = s.x := rfl
@[simp] theorem State.commitSum_y :
    (s.commitSum sum).y = s.y.push s.cfg.n (wrapTo s.cfg.accW sum) := rfl
@[simp] theorem State.commitSum_status :
    (s.commitSum sum).status = computeStatus s.status (accWrapped s.cfg sum)
      (outOverflow s.cfg (scaledOutput s.cfg (wrapTo s.cfg.accW sum))) := rfl
@[simp] theorem State.commitSum_last :
    (s.commitSum sum).last = scaledOutput s.cfg (wrapTo s.cfg.accW sum) := rfl
@[simp] theorem State.commitSum_outcode :
    (s.commitSum sum).outcode = lowBits s.cfg.outW (scaledOutput s.cfg (wrapTo s.cfg.accW sum)) := rfl
@[simp] theorem State.commitSum_phase :
    (s.commitSum sum).phase =
      .resp ⟨lowBits s.cfg.accW (scaledOutput s.cfg (wrapTo s.cfg.accW sum)), .ok,
        outOverflow s.cfg (scaledOutput s.cfg (wrapTo s.cfg.accW sum))⟩ := rfl
@[simp] theorem State.commitSum_host : (s.commitSum sum).host = s.host := rfl
@[simp] theorem State.commitSum_execDraws : (s.commitSum sum).execDraws = s.execDraws := rfl

@[simp] theorem State.applyReset_eq : s.applyReset = State.cold s.cfg s.host s.execDraws := rfl

@[simp] theorem Phase.initFor_zero : Phase.initFor 0 = .idle := rfl
@[simp] theorem Phase.initFor_succ : Phase.initFor (n + 1) = .init (n + 1) := rfl

end

end Sys2Proof.Machine
end

