-- ==== Sys2Proof/Safety.lean ====
section
/-! DEFINITION. What the claims use: the invariant of reachable states (10_state.md R20 to R36), the premises a claim about
the filter's arithmetic or about correct use takes (60_exceptions.md R176), and runs of commands and of edges. -/

namespace Sys2Proof.Machine

/-- A buffer of `n` slots of signed `w`-bit values with its cursor in range (10_state.md R21 to R23). -/
structure History.WellFormed (n w : Nat) (b : History) : Prop where
  length : b.slots.length = n
  cursor : b.wp < n
  range : ∀ v ∈ b.slots, InSigned w v

/-- A response the interface can hold: ACC_W bits of data, and (0, 0) beside an error (30_encoding.md R85). -/
structure Response.WellFormed (c : Config) (r : Response) : Prop where
  data : r.data < 2 ^ c.accW
  refused : r.err ≠ .ok → r.data = 0 ∧ r.ovf = false

/-- A phase the interface can be in (10_state.md R34, 00_scope.md R12). -/
def Phase.WellFormed (c : Config) : Phase → Prop
  | .init k => 1 ≤ k ∧ k ≤ c.tInit
  | .idle => True
  | .exec _ d left => d < 2 ^ c.accW ∧ 1 ≤ left
  | .resp r => r.WellFormed c

/-- The invariant of the machine: buffers of N slots in range, LAST in 2·ACC_W bits, OUTCODE and LASTOVF the masked value
and the overflow indicator of LAST, and a phase the interface can be in
(10_state.md R21 to R23, R28 to R30, R34; 41_engine.md R127 to R129). -/
structure State.Inv (s : State) : Prop where
  x : s.x.WellFormed s.cfg.n s.cfg.inW
  y : s.y.WellFormed s.cfg.n s.cfg.accW
  last : InSigned (2 * s.cfg.accW) s.last
  outcode : s.outcode = lowBits s.cfg.outW s.last
  lastovf : flagLastovf s.status = outOverflow s.cfg s.last
  phase : s.phase.WellFormed s.cfg

/-- The premise of a claim about the source's exact filter arithmetic (60_exceptions.md R176). -/
def State.ArithmeticExact (s : State) : Prop := flagAccovf s.status = false

/-- The premise of a claim about correct command use (60_exceptions.md R176). -/
def State.UsedCorrectly (s : State) : Prop := flagIll s.status = false ∧ flagRng s.status = false

/-- Both histories at cold start (00_scope.md §6). -/
def State.HistoriesCold (s : State) : Prop :=
  s.x = History.cold s.cfg.n ∧ s.y = History.cold s.cfg.n

/-- Commands run one after another, each handed over before the next: the total order of 20_memory.md R60. A stop, which
the core has none of, would leave the state as it was. -/
def runCommands : List Instr → State → State
  | [], s => s
  | i :: rest, s =>
    match exec i s with
    | .next t => runCommands rest t
    | .fault _ => s
    | .refused _ => s

/-- `k` steps of the machine, the state staying where a step would stop. -/
def runEdges : Nat → State → State
  | 0, s => s
  | k + 1, s =>
    match step s with
    | .next t => runEdges k t
    | .fault _ => s
    | .refused _ => s

/-- Pushes of the listed values into a buffer of `n` slots, the first first (20_memory.md R54). -/
def History.pushAll (n : Nat) (b : History) : List Int → History
  | [] => b
  | v :: rest => (b.push n v).pushAll n rest

/-- The raw sample of the n-th of a list of COMPUTE operands, two's complement of its low IN_W bits
(41_engine.md R121, R131); 0 past the end. -/
def sampleOf (c : Config) (ds : List Nat) (n : Nat) : Int := (BitVec.ofNat c.inW (ds.getD n 0)).toInt

/-- The state after the first `n` COMPUTEs of a list of operands (41_engine.md R131). -/
def afterComputes (s : State) (ds : List Nat) (n : Nat) : State :=
  runCommands ((ds.take n).map Instr.compute) s

/-- The data operands of the COMPUTEs in a list of commands, in order (41_engine.md R131). -/
def computeOperands (is : List Instr) : List Nat :=
  is.filterMap fun i => match i with
    | .compute d => some d
    | .nop | .pushx _ | .pushy _ | .getx _ | .gety _ | .clear | .rdcoef _ _ | .rdreg _ | .clrstat _ => none

/-- No PUSHX, PUSHY or CLEAR in a list of commands: nothing but COMPUTE writes the histories
(40_history_buffer.md R106, 41_engine.md R131). -/
def FilterUndisturbed (is : List Instr) : Prop := ∀ i ∈ is, i.mnemonic ∉ [.pushx, .pushy, .clear]

/-- y[n]: the accumulator of COMPUTE n, which is the newest entry of Y after it (41_engine.md R126, R131). -/
def accumulatorOf (s : State) (ds : List Nat) (n : Nat) : Int :=
  (afterComputes s ds (n + 1)).y.get s.cfg.n 0

/-- The command the coming edge commits, if it commits one: EXEC is at its last edge, `rst` is 0 and the word decodes
(30_encoding.md R74). -/
def State.commits (s : State) (i : Instr) : Prop :=
  s.pins.rst = false ∧ ∃ w d left, s.phase = .exec w d left ∧ left ≤ 1 ∧ decode w d = .ok i

/-- The pins of the `k`-th edge from now, the coming edge being the 0-th; quiet past the end (log 1). -/
def State.pinsAt (s : State) (k : Nat) : Pins := s.host.getD k Pins.quiet

end Sys2Proof.Machine
end

