-- ==== Sys2Proof/Laws/Ops.lean ====
section
/-! SUPPORT. The laws of the history buffers (20_memory.md R52 to R54, 40_history_buffer.md R103): what a push leaves and what a
read after it gives. -/

namespace Sys2Proof.Machine

@[simp] theorem History.push_length (n : Nat) (b : History) (v : Int) :
    (b.push n v).slots.length = b.slots.length := by simp [History.push]

@[simp] theorem History.push_slots (n : Nat) (b : History) (v : Int) :
    (b.push n v).slots = b.slots.set b.wp v := rfl

@[simp] theorem History.push_wp (n : Nat) (b : History) (v : Int) :
    (b.push n v).wp = (b.wp + 1) % n := modN_succ n b.wp

/-- The slot a legal distance reads (20_memory.md R53). -/
theorem History.get_eq (n : Nat) (b : History) (dist : Nat) (h : dist < n) :
    b.get n dist = b.slots.getD ((b.wp + (n - 1 - dist)) % n) 0 := by
  rw [History.get, modN_back n b.wp dist h]

/-- After a push the distance 0 reads the pushed value (20_memory.md R53, R54). -/
theorem History.get_push_zero (n : Nat) (b : History) (v : Int) (hlen : b.slots.length = n)
    (hwp : b.wp < n) : (b.push n v).get n 0 = v := by
  rw [History.get_eq n _ 0 (by omega), History.push_wp, History.push_slots]
  have h : ((b.wp + 1) % n + (n - 1 - 0)) % n = b.wp := by
    rw [Nat.mod_add_mod]
    have : b.wp + 1 + (n - 1 - 0) = b.wp + n := by omega
    rw [this, Nat.add_mod_right, Nat.mod_eq_of_lt hwp]
  rw [h, List.getD_eq_getElem?_getD]
  simp [hlen, hwp]

/-- After a push every further distance reads what the distance before it read (20_memory.md R53, R54). -/
theorem History.get_push_succ (n : Nat) (b : History) (v : Int) (dist : Nat) (hwp : b.wp < n)
    (hd : dist + 1 < n) : (b.push n v).get n (dist + 1) = b.get n dist := by
  rw [History.get_eq n _ _ hd, History.get_eq n _ _ (by omega), History.push_wp,
    History.push_slots]
  have h : ((b.wp + 1) % n + (n - 1 - (dist + 1))) % n = (b.wp + (n - 1 - dist)) % n := by
    rw [Nat.mod_add_mod]
    congr 1
    omega
  have hne : (b.wp + (n - 1 - dist)) % n ≠ b.wp := by
    intro hc
    by_cases hlt : b.wp + (n - 1 - dist) < n
    · rw [Nat.mod_eq_of_lt hlt] at hc; omega
    · rw [Nat.mod_eq_sub_mod (by omega), Nat.mod_eq_of_lt (by omega)] at hc; omega
  rw [h, List.getD_eq_getElem?_getD, List.getD_eq_getElem?_getD, List.getElem?_set_ne hne.symm]

/-- A push keeps a buffer well formed when the value is in range (10_state.md R23). -/
theorem History.push_wellFormed (n w : Nat) (b : History) (v : Int) (h : b.WellFormed n w)
    (hv : InSigned w v) : (b.push n v).WellFormed n w where
  length := by simp [h.length]
  cursor := by
    have := h.cursor
    rw [History.push_wp]; exact Nat.mod_lt _ (by omega)
  range := by
    intro u hu
    rcases List.mem_or_eq_of_mem_set hu with hu | rfl
    · exact h.range u hu
    · exact hv

/-- A cold buffer is well formed (10_state.md R36). -/
theorem History.cold_wellFormed (n w : Nat) (hn : 0 < n) : (History.cold n).WellFormed n w where
  length := by simp [History.cold]
  cursor := hn
  range := by
    intro v hv
    rw [(List.mem_replicate.mp hv).2]
    have := two_pow_pos_int (w - 1)
    exact ⟨by omega, this⟩

/-- What a well-formed buffer reads is in range (10_state.md R21, R22). -/
theorem History.get_inSigned (n w : Nat) (b : History) (dist : Nat) (h : b.WellFormed n w) :
    InSigned w (b.get n dist) := by
  have hn : 0 < n := lt_of_le_of_lt (Nat.zero_le _) h.cursor
  have hi := modN_lt n hn ((b.wp : Int) - 1 - dist)
  rw [← h.length] at hi
  unfold History.get
  rw [List.getD_eq_getElem?_getD, List.getElem?_eq_getElem (by simpa [h.length] using hi)]
  exact h.range _ (List.getElem_mem _)

/-- The sum of the first k terms as the library's finite sum (41_engine.md R124). -/
theorem sumBelow_eq_sum (f : Nat → Int) (k : Nat) : sumBelow f k = ∑ i ∈ Finset.range k, f i := by
  induction k with
  | zero => rfl
  | succ k ih => rw [sumBelow, Finset.sum_range_succ, ih]

end Sys2Proof.Machine
end

