-- ==== Sys2Proof/Laws/Step.lean ====
section
/-! SUPPORT. What one edge can do, said once (30_encoding.md R70 to R76, 70_reset_and_hazards.md R190 to R193). -/

namespace Sys2Proof.Machine

/-- An edge with `rst` = 1 resets (70_reset_and_hazards.md R190). -/
theorem step_of_rst (s : State) (h : s.pins.rst = true) :
    step s = .next (State.cold s.cfg s.host.tail s.execDraws) := by
  simp [step, clockEdge, h]

/-- An edge with `rst` = 0 is decided by the phase (30_encoding.md R73 to R76). -/
theorem step_of_running (s : State) (h : s.pins.rst = false) :
    step s = phaseEdge s.pins s.takePins := by
  simp [step, clockEdge, h]

/-- A word either runs the command it decodes to or is refused as ILLEGAL (30_encoding.md R93). -/
theorem runCommand_cases (w : CmdWord) (d : Nat) (s : State) :
    (∃ i, decode w d = .ok i ∧ runCommand w d s = exec i s) ∨
    (∃ e, decode w d = .error e ∧ runCommand w d s = .next (s.raise .illegal)) := by
  unfold runCommand
  cases decode w d with
  | ok i => exact .inl ⟨i, rfl, rfl⟩
  | error e => exact .inr ⟨e, rfl, rfl⟩

/-- What an edge with `rst` = 0 can do, phase by phase: count INIT down, accept, wait, count EXEC down, commit, hand over,
or hold. -/
theorem phaseEdge_cases (p : Pins) (s : State) :
    (∃ k, s.phase = .init k ∧ phaseEdge p s = .next { s with phase := Phase.initFor (k - 1) }) ∨
    (s.phase = .idle ∧ p.cmdValid = true ∧ phaseEdge p s = .next (s.accept p.cmdWord p.cmdData)) ∨
    (s.phase = .idle ∧ p.cmdValid = false ∧ phaseEdge p s = .next s) ∨
    (∃ w d left, s.phase = .exec w d left ∧ 1 < left ∧
      phaseEdge p s = .next { s with phase := .exec w d (left - 1) }) ∨
    (∃ w d left, s.phase = .exec w d left ∧ left ≤ 1 ∧ phaseEdge p s = runCommand w d s) ∨
    (∃ r, s.phase = .resp r ∧ p.rspReady = true ∧ phaseEdge p s = .next { s with phase := .idle }) ∨
    (∃ r, s.phase = .resp r ∧ p.rspReady = false ∧ phaseEdge p s = .next s) := by
  unfold phaseEdge
  cases h : s.phase with
  | init k => exact .inl ⟨k, rfl, rfl⟩
  | idle => cases hv : p.cmdValid <;> simp
  | exec w d left =>
    by_cases hl : left ≤ 1
    · simp [hl]
    · simp [hl]; omega
  | resp r => cases hr : p.rspReady <;> simp

end Sys2Proof.Machine
end

