-- ==== Sys2Proof/Machine/Assembler.lean ====
section
/-! DEFINITION. The textual form of commands (30_encoding.md R90), the pseudo-instructions (R91) and operand assembly (R92).
It is no behaviour of the core: it says which words and operands a line of text stands for. A line assembles to a
list of commands, or to none where it is an assembly error. -/

namespace Sys2Proof.Machine

/-- A line's command: the ten mnemonics with their written operands, and the five pseudo-instructions
(30_encoding.md R90, R91). -/
inductive AsmCmd where
  | nop
  | compute (imm : Int)
  | pushx (imm : Int)
  | pushy (imm : Int)
  | getx (off : Int)
  | gety (off : Int)
  | clear
  | rdcoef (bank : Bank) (i : Int)
  | rdreg (reg : Int)
  | clrstat (imm : Int)
  | rdstat
  | rdcfg
  | rdcur
  | rdlast
  | clrall
deriving DecidableEq, Repr

/-- An `<imm>` lies in [-2^(ACC_W-1), 2^ACC_W) and assembles to d = low_ACC_W(imm) (30_encoding.md R90, R92). -/
def asmImm (c : Config) (imm : Int) : Option Nat :=
  if -(2 : Int) ^ (c.accW - 1) ≤ imm ∧ imm < (2 : Int) ^ c.accW then some (lowBits c.accW imm) else none

/-- An `<i>` or register index lies in 0 to 255 (30_encoding.md R90). -/
def asmIndex (i : Int) : Option Index :=
  if 0 ≤ i ∧ i ≤ 255 then some (BitVec.ofInt 8 i) else none

/-- An `<off>` lies in 0 to -255, and D = -off (30_encoding.md R90, 20_memory.md R51). -/
def asmOffset (off : Int) : Option Index := asmIndex (-off)

/-- The commands a line's command stands for (30_encoding.md R90 to R92); none where the field cannot hold the operand. -/
def assemble (c : Config) : AsmCmd → Option (List Instr)
  | .nop => some [.nop]
  | .compute imm => (asmImm c imm).map fun d => [.compute d]
  | .pushx imm => (asmImm c imm).map fun d => [.pushx d]
  | .pushy imm => (asmImm c imm).map fun d => [.pushy d]
  | .getx off => (asmOffset off).map fun dist => [.getx dist]
  | .gety off => (asmOffset off).map fun dist => [.gety dist]
  | .clear => some [.clear]
  | .rdcoef bank i => (asmIndex i).map fun index => [.rdcoef bank index]
  | .rdreg reg => (asmIndex reg).map fun index => [.rdreg index]
  | .clrstat imm => (asmImm c imm).map fun d => [.clrstat d]
  | .rdstat => some [.rdreg 0#8]
  | .rdcfg => some [.rdreg 1#8]
  | .rdcur => some [.rdreg 2#8]
  | .rdlast => some [.rdreg 3#8, .rdreg 4#8]
  | .clrall => some [.clrstat 0xF]

/-- The words and data operands of a line's command (30_encoding.md R92). -/
def assembleWords (c : Config) (a : AsmCmd) : Option (List (CmdWord × Nat)) :=
  (assemble c a).map (List.map encode)

/-- The register names and their indexes (30_encoding.md R90). -/
def registerNames : List (List Char × Int) :=
  [("STATUS".toList, 0), ("CONFIG".toList, 1), ("CURSOR".toList, 2), ("LASTLO".toList, 3),
   ("LASTHI".toList, 4), ("SCALENUM".toList, 5), ("SCALEDEN".toList, 6), ("OUTCODE".toList, 7)]

/-- The value of a digit in base 16, none for another character. -/
def digitValue (ch : Char) : Option Nat :=
  if '0' ≤ ch ∧ ch ≤ '9' then some (ch.toNat - '0'.toNat)
  else if 'a' ≤ ch ∧ ch ≤ 'f' then some (ch.toNat - 'a'.toNat + 10)
  else if 'A' ≤ ch ∧ ch ≤ 'F' then some (ch.toNat - 'A'.toNat + 10)
  else none

/-- Digits in a base after the value so far; none at a character that is no digit of the base. -/
def digitsFrom (base : Nat) (value : Nat) : List Char → Option Nat
  | [] => some value
  | ch :: rest =>
    match digitValue ch with
    | some v => if v < base then digitsFrom base (value * base + v) rest else none
    | none => none

/-- A number of at least one digit in a base. -/
def digits (base : Nat) : List Char → Option Nat
  | [] => none
  | ch :: rest => digitsFrom base 0 (ch :: rest)

/-- A written number: decimal with an optional sign, or hexadecimal written 0x... (30_encoding.md R90). -/
def numberOf : List Char → Option Int
  | '0' :: 'x' :: rest => (digits 16 rest).map fun v => (v : Int)
  | '-' :: rest => (digits 10 rest).map fun v => -(v : Int)
  | '+' :: rest => (digits 10 rest).map fun v => (v : Int)
  | other => (digits 10 other).map fun v => (v : Int)

/-- A written register: a name or an index in any `numberOf` form (30_encoding.md R90; the form is log 10's choice). -/
def registerOf (tok : List Char) : Option Int :=
  match registerNames.lookup tok with
  | some index => some index
  | none => numberOf tok

/-- A written bank: NUM or DEN (30_encoding.md R90). -/
def bankOf (tok : List Char) : Option Bank :=
  if tok = "NUM".toList then some .num
  else if tok = "DEN".toList then some .den
  else none

/-- The line up to the `;` that starts a comment (30_encoding.md R90). -/
def stripComment : List Char → List Char
  | [] => []
  | ch :: rest => if ch = ';' then [] else ch :: stripComment rest

/-- A token list with `word` put before it, unless `word` is empty. -/
def flushToken (word : List Char) (rest : List (List Char)) : List (List Char) :=
  if word = [] then rest else word :: rest

/-- The tokens of a line: maximal runs of characters other than blanks and commas, and each comma (log 10). -/
def tokensFrom (word : List Char) : List Char → List (List Char)
  | [] => flushToken word []
  | ch :: rest =>
    if ch = ' ' ∨ ch = '\t' then flushToken word (tokensFrom [] rest)
    else if ch = ',' then flushToken word ([','] :: tokensFrom [] rest)
    else tokensFrom (word ++ [ch]) rest

/-- The mnemonics that take no operand (30_encoding.md R90, R91). -/
def bareMnemonics : List (List Char × AsmCmd) :=
  [("NOP".toList, .nop), ("CLEAR".toList, .clear), ("RDSTAT".toList, .rdstat), ("RDCFG".toList, .rdcfg),
   ("RDCUR".toList, .rdcur), ("RDLAST".toList, .rdlast), ("CLRALL".toList, .clrall)]

/-- A command with one operand, by its mnemonic in capitals (30_encoding.md R90).
DESIGN CHOICE, safe for the core (log 10): R90 gives a written form for `<imm>` only and says of an `<off>` which values it
takes; here the `<off>` of GETX and GETY is any `numberOf` form of its value, so that +0, -0 and 0x0 are read as 0. -/
def oneOperand (mnemonic operand : List Char) : Option AsmCmd :=
  if mnemonic = "COMPUTE".toList then (numberOf operand).map .compute
  else if mnemonic = "PUSHX".toList then (numberOf operand).map .pushx
  else if mnemonic = "PUSHY".toList then (numberOf operand).map .pushy
  else if mnemonic = "GETX".toList then (numberOf operand).map .getx
  else if mnemonic = "GETY".toList then (numberOf operand).map .gety
  else if mnemonic = "RDREG".toList then (registerOf operand).map .rdreg
  else if mnemonic = "CLRSTAT".toList then (numberOf operand).map .clrstat
  else none

/-- A command from its tokens; mnemonics are case-insensitive (30_encoding.md R90). -/
def commandOf : List (List Char) → Option AsmCmd
  | [m] => bareMnemonics.lookup (m.map Char.toUpper)
  | [m, operand] => oneOperand (m.map Char.toUpper) operand
  | [m, bank, [','], index] =>
    if m.map Char.toUpper = "RDCOEF".toList then
      match bankOf bank, numberOf index with
      | some b, some i => some (.rdcoef b i)
      | _, _ => none
    else none
  | _ => none

/-- One line of text: the words and operands it stands for, the empty list for a blank or comment line, none for an
assembly error (30_encoding.md R90 to R92). -/
def assembleLine (c : Config) (line : List Char) : Option (List (CmdWord × Nat)) :=
  match tokensFrom [] (stripComment line) with
  | [] => some []
  | tok :: rest => (commandOf (tok :: rest)).bind (assembleWords c)

end Sys2Proof.Machine
end

