-- ==== Sys2Proof/Certificates/Slice0/Obligations.lean ====
section
/-! DEFINITION. The statements for the provers, each from numbered rules of the spec. Values are said with the library's
two's-complement patterns (`BitVec.ofInt`, `BitVec.toInt`), finite sums and truncated division, not with the model's own
primitives, wherever a rule gives a value. -/

open Sys2Proof Sys2Proof.Machine

/-! ## Encoding -/

/-- 30_encoding.md R82 to R84, R86: what the decoder reads of an encoded well-formed command, its operand carried by the
data port, is that command. -/
def Obligations.DecodeOfEncodedCommand : Prop :=
  ∀ (c : Config) (i : Instr), i.wellFormed c = true →
    decode (encodeWord i) (portData c (encodeData i)) = .ok i

/-- 30_encoding.md R82, R84: a decoded word is the word of the command it decodes to, so each command has one word. -/
def Obligations.EncodeOfDecodedWord : Prop :=
  ∀ (w : CmdWord) (d : Nat) (i : Instr), decode w d = .ok i →
    encodeWord i = w ∧ decode w (encodeData i) = .ok i

/-- 30_encoding.md R86: a word selects a mnemonic exactly when (w and mask) = match; no word matches two rows, a word that
matches none is ILLEGAL, and D and S are read from bits 15:8 and 16. -/
def Obligations.DecodeMatchesOpcodeTable : Prop :=
  ∀ (w : CmdWord) (d : Nat),
    (∀ r ∈ opcodeTable, w &&& r.mask = r.pattern ↔
      ∃ i, decode w d = .ok i ∧ i.mnemonic = r.mnemonic) ∧
    (∀ r ∈ opcodeTable, ∀ r' ∈ opcodeTable,
      w &&& r.mask = r.pattern → w &&& r'.mask = r'.pattern → r = r') ∧
    ((∀ r ∈ opcodeTable, w &&& r.mask ≠ r.pattern) → ∃ e, decode w d = .error e) ∧
    (∀ dist, decode w d = .ok (.getx dist) → dist = w.extractLsb' 8 8) ∧
    (∀ dist, decode w d = .ok (.gety dist) → dist = w.extractLsb' 8 8) ∧
    (∀ index, decode w d = .ok (.rdreg index) → index = w.extractLsb' 8 8) ∧
    (∀ bank index, decode w d = .ok (.rdcoef bank index) →
      index = w.extractLsb' 8 8 ∧ bank = if w.getLsbD 16 then Bank.den else Bank.num)

/-- 30_encoding.md R92 and the vectors V-D of 95_test_vectors.md: words written out from the encoding decode so. -/
def Obligations.SpecWordsDecode : Prop :=
  ∀ d : Nat,
    decode 0x00000304#32 d = .ok (.getx 3#8) ∧
    decode 0x00000105#32 d = .ok (.gety 1#8) ∧
    decode 0x00010207#32 d = .ok (.rdcoef .den 2#8) ∧
    decode 0x00000007#32 d = .ok (.rdcoef .num 0#8) ∧
    decode 0x00000708#32 d = .ok (.rdreg 7#8) ∧
    decode 0x00000001#32 d = .ok (.compute d) ∧
    decode 0x00010404#32 d = .error .reservedBits ∧
    decode 0x0000FF0F#32 d = .error .reservedOpcode

/-- 30_encoding.md R87: a word with OP = 0xA to 0xF, or with a valid OP and a non-zero bit outside the opcode's fields, is
ILLEGAL: rsp_err = 1, STATUS.ILL set, no other effect. -/
def Obligations.ReservedWordIsIllegal : Prop :=
  ∀ (w : CmdWord) (d : Nat) (s : State),
    (10 ≤ (w.extractLsb' 0 4).toNat ∨
      w &&& (if (w.extractLsb' 0 4).toNat ∈ [4, 5, 8] then 0xFFFF00F0#32
        else if (w.extractLsb' 0 4).toNat = 7 then 0xFFFE00F0#32 else 0xFFFFFFF0#32) ≠ 0#32) →
    runCommand w d s =
      .next { s with status := s.status ||| 0x01#5, phase := .resp ⟨0, .illegal, false⟩ }

/-! ## Errors -/

/-- 60_exceptions.md R172: every command is answered, and a refused one sets its STATUS bit, answers (0, code, 0) and
changes nothing else. -/
def Obligations.RefusedCommandChangesOnlyItsStatusBit : Prop :=
  ∀ (w : CmdWord) (d : Nat) (s : State), ∃ t r,
    runCommand w d s = .next t ∧ t.phase = .resp r ∧
    (r.err = .illegal →
      t = { s with status := s.status ||| 0x01#5, phase := .resp ⟨0, .illegal, false⟩ }) ∧
    (r.err = .range →
      t = { s with status := s.status ||| 0x02#5, phase := .resp ⟨0, .range, false⟩ })

/-- 60_exceptions.md R171, R173, 30_encoding.md R85: ILLEGAL is answered exactly to words that do not decode, RANGE exactly
to a decoded distance or index the configuration does not define, and rsp_ovf only to a COMPUTE. -/
def Obligations.ErrorCodeByCause : Prop :=
  ∀ (w : CmdWord) (d : Nat) (s t : State) (r : Response),
    runCommand w d s = .next t → t.phase = .resp r →
    (r.err = .illegal ↔ ∃ e, decode w d = .error e) ∧
    (r.err = .range ↔ ∃ i, decode w d = .ok i ∧
      match i with
      | .getx dist => s.cfg.n ≤ dist.toNat
      | .gety dist => s.cfg.n ≤ dist.toNat
      | .rdcoef .num index => s.cfg.n ≤ index.toNat
      | .rdcoef .den index => index.toNat = 0 ∨ s.cfg.n ≤ index.toNat
      | .rdreg index => 8 ≤ index.toNat
      | _ => False) ∧
    (r.ovf = true → ∃ x, decode w d = .ok (.compute x))

/-! ## Results of the commands, each with its frame and its completion -/

/-- 42_control.md R150: the all-zero word, whatever its operand, answers (0, 0, 0) and changes no state. -/
def Obligations.NopResult : Prop :=
  (∀ s : State, exec .nop s = .next { s with phase := .resp ⟨0, .ok, false⟩ }) ∧
    (∀ (w : CmdWord) (d : Nat), decode w d = .ok .nop ↔ w = 0x00000000#32)

/-- 40_history_buffer.md R101: the word is 0x00000002; X gets the low IN_W bits of d as two's complement, the cursor advances modulo N, the response
is the stored value, and nothing else changes. -/
def Obligations.PushxResult : Prop :=
  (∀ (d : Nat) (s : State),
    exec (.pushx d) s =
      .next { s with
        x := ⟨s.x.slots.set s.x.wp (BitVec.ofNat s.cfg.inW d).toInt, (s.x.wp + 1) % s.cfg.n⟩,
        phase := .resp
          ⟨(BitVec.ofInt s.cfg.accW (BitVec.ofNat s.cfg.inW d).toInt).toNat, .ok, false⟩ }) ∧
    (∀ (w : CmdWord) (d d' : Nat), decode w d = .ok (.pushx d') ↔ w = 0x00000002#32 ∧ d' = d)

/-- 40_history_buffer.md R102: the word is 0x00000003; Y gets all ACC_W bits of d as two's complement, the response is d as the port carries it, and
nothing else changes. -/
def Obligations.PushyResult : Prop :=
  (∀ (d : Nat) (s : State),
    exec (.pushy d) s =
      .next { s with
        y := ⟨s.y.slots.set s.y.wp (BitVec.ofNat s.cfg.accW d).toInt, (s.y.wp + 1) % s.cfg.n⟩,
        phase := .resp ⟨d % 2 ^ s.cfg.accW, .ok, false⟩ }) ∧
    (∀ (w : CmdWord) (d d' : Nat), decode w d = .ok (.pushy d') ↔ w = 0x00000003#32 ∧ d' = d)

/-- 40_history_buffer.md R104, 20_memory.md R53, R55: a distance below N reads its slot of X, sign-extended; any other is
RANGE, never reduced modulo N. -/
def Obligations.GetxResult : Prop :=
  (∀ (dist : Index) (s : State),
    (dist.toNat < s.cfg.n →
      exec (.getx dist) s =
        .next { s with
          phase := .resp ⟨(BitVec.ofInt s.cfg.accW
            (s.x.slots.getD ((s.x.wp + (s.cfg.n - 1 - dist.toNat)) % s.cfg.n) 0)).toNat, .ok, false⟩ }) ∧
    (s.cfg.n ≤ dist.toNat →
      exec (.getx dist) s =
        .next { s with status := s.status ||| 0x02#5, phase := .resp ⟨0, .range, false⟩ })) ∧
    (∀ (w : CmdWord) (d : Nat) (dist : Index), decode w d = .ok (.getx dist) ↔
      w &&& 0xFFFF00FF#32 = 0x00000004#32 ∧ dist = w.extractLsb' 8 8)

/-- 40_history_buffer.md R105, 20_memory.md R53, R55: the same for Y. -/
def Obligations.GetyResult : Prop :=
  (∀ (dist : Index) (s : State),
    (dist.toNat < s.cfg.n →
      exec (.gety dist) s =
        .next { s with
          phase := .resp ⟨(BitVec.ofInt s.cfg.accW
            (s.y.slots.getD ((s.y.wp + (s.cfg.n - 1 - dist.toNat)) % s.cfg.n) 0)).toNat, .ok, false⟩ }) ∧
    (s.cfg.n ≤ dist.toNat →
      exec (.gety dist) s =
        .next { s with status := s.status ||| 0x02#5, phase := .resp ⟨0, .range, false⟩ })) ∧
    (∀ (w : CmdWord) (d : Nat) (dist : Index), decode w d = .ok (.gety dist) ↔
      w &&& 0xFFFF00FF#32 = 0x00000005#32 ∧ dist = w.extractLsb' 8 8)

/-- 40_history_buffer.md R107: every slot and both cursors become 0; STATUS, LAST and OUTCODE stay. -/
def Obligations.ClearResult : Prop :=
  (∀ s : State,
    exec .clear s =
      .next { s with
        x := ⟨List.replicate s.cfg.n 0, 0⟩,
        y := ⟨List.replicate s.cfg.n 0, 0⟩,
        phase := .resp ⟨0, .ok, false⟩ }) ∧
    (∀ (w : CmdWord) (d : Nat), decode w d = .ok .clear ↔ w = 0x00000006#32)

/-- 42_control.md R152: a stored tap is returned as its two's-complement pattern; DEN[0] and every index of N and above are
RANGE. `den` holds DEN[1] at its head. -/
def Obligations.RdcoefResult : Prop :=
  (∀ (index : Index) (s : State),
    (index.toNat < s.cfg.n →
      exec (.rdcoef .num index) s =
        .next { s with
          phase := .resp ⟨(BitVec.ofInt s.cfg.accW (s.cfg.num.getD index.toNat 0)).toNat, .ok, false⟩ }) ∧
    (s.cfg.n ≤ index.toNat →
      exec (.rdcoef .num index) s =
        .next { s with status := s.status ||| 0x02#5, phase := .resp ⟨0, .range, false⟩ }) ∧
    (1 ≤ index.toNat → index.toNat < s.cfg.n →
      exec (.rdcoef .den index) s =
        .next { s with
          phase := .resp ⟨(BitVec.ofInt s.cfg.accW (s.cfg.den.getD (index.toNat - 1) 0)).toNat, .ok, false⟩ }) ∧
    (index.toNat = 0 ∨ s.cfg.n ≤ index.toNat →
      exec (.rdcoef .den index) s =
        .next { s with status := s.status ||| 0x02#5, phase := .resp ⟨0, .range, false⟩ })) ∧
    (∀ (w : CmdWord) (d : Nat) (bank : Bank) (index : Index), decode w d = .ok (.rdcoef bank index) ↔
      w &&& 0xFFFE00FF#32 = 0x00000007#32 ∧ index = w.extractLsb' 8 8 ∧
        bank = if w.getLsbD 16 then .den else .num)

/-- 42_control.md R153 with 10_state.md R27, R29 to R33: each register's pattern, and RANGE for 8 and above. -/
def Obligations.RdregResult : Prop :=
  (∀ s : State, s.Inv → ∀ index value, (index, value) ∈
        [(0#8, s.status.toNat),
         (1#8, 2 ^ 32 + 2 ^ 24 * s.cfg.accW + 2 ^ 16 * s.cfg.outW + 2 ^ 8 * s.cfg.inW + s.cfg.log2n),
         (2#8, 2 ^ 8 * s.y.wp + s.x.wp),
         (3#8, (BitVec.ofInt s.cfg.accW s.last).toNat),
         (4#8, (BitVec.ofInt (2 * s.cfg.accW) s.last).toNat / 2 ^ s.cfg.accW),
         (5#8, (BitVec.ofInt s.cfg.accW s.cfg.snum).toNat),
         (6#8, (BitVec.ofInt s.cfg.accW s.cfg.sden).toNat),
         (7#8, s.outcode)] →
      exec (.rdreg index) s = .next { s with phase := .resp ⟨value, .ok, false⟩ }) ∧
    (∀ (s : State) (index : Index), 8 ≤ index.toNat →
      exec (.rdreg index) s =
        .next { s with status := s.status ||| 0x02#5, phase := .resp ⟨0, .range, false⟩ }) ∧
    (∀ (w : CmdWord) (d : Nat) (index : Index), decode w d = .ok (.rdreg index) ↔
      w &&& 0xFFFF00FF#32 = 0x00000008#32 ∧ index = w.extractLsb' 8 8)

/-- 42_control.md R154: the old STATUS is returned, each of the four sticky bits is cleared when its bit of d is 1, and
LASTOVF and everything else stay. -/
def Obligations.ClrstatResult : Prop :=
  (∀ (d : Nat) (s : State), ∃ st : StatusBits,
    exec (.clrstat d) s =
      .next { s with status := st, phase := .resp ⟨s.status.toNat, .ok, false⟩ } ∧
    (∀ k, k < 4 → st.getLsbD k = (s.status.getLsbD k && !d.testBit k)) ∧
    st.getLsbD 4 = s.status.getLsbD 4) ∧
    (∀ (w : CmdWord) (d d' : Nat), decode w d = .ok (.clrstat d') ↔ w = 0x00000009#32 ∧ d' = d)

/-- 41_engine.md R120: the whole of COMPUTE. The sums range over the X with the sample pushed and the Y before the push; the
products and sums are exact, the feedback is added. -/
def Obligations.ComputeResult : Prop :=
  (∀ (d : Nat) (s : State),
    let n := s.cfg.n
    let x : History :=
      ⟨s.x.slots.set s.x.wp (BitVec.ofNat s.cfg.inW d).toInt, (s.x.wp + 1) % n⟩
    let sum : Int :=
      ∑ i ∈ Finset.range n, s.cfg.num.getD i 0 * x.slots.getD ((x.wp + (n - 1 - i)) % n) 0 +
      ∑ i ∈ Finset.Ico 1 n, s.cfg.den.getD (i - 1) 0 * s.y.slots.getD ((s.y.wp + (n - 1 - i)) % n) 0
    let acc : Int := (BitVec.ofInt s.cfg.accW sum).toInt
    let q : Int := Int.tdiv (acc * s.cfg.snum) s.cfg.sden
    let ovf : Bool := decide ((2 : Int) ^ s.cfg.outW ≤ q)
    ∃ st : StatusBits,
      exec (.compute d) s =
        .next { s with
          x := x
          y := ⟨s.y.slots.set s.y.wp acc, (s.y.wp + 1) % n⟩
          status := st
          last := q
          outcode := (q % 2 ^ s.cfg.outW).toNat
          phase := .resp ⟨(BitVec.ofInt s.cfg.accW q).toNat, .ok, ovf⟩ } ∧
      st.getLsbD 0 = s.status.getLsbD 0 ∧
      st.getLsbD 1 = s.status.getLsbD 1 ∧
      st.getLsbD 2 = (s.status.getLsbD 2 || decide (sum ≠ acc)) ∧
      st.getLsbD 3 = (s.status.getLsbD 3 || ovf) ∧
      st.getLsbD 4 = ovf) ∧
    (∀ (w : CmdWord) (d d' : Nat), decode w d = .ok (.compute d') ↔ w = 0x00000001#32 ∧ d' = d)

/-! ## Frames over all commands -/

/-- 10_state.md R38, R24: the write half of the access matrix. A command changes X only if it is COMPUTE, PUSHX or CLEAR, Y
only if COMPUTE, PUSHY or CLEAR, LAST and OUTCODE only if COMPUTE, and never the configuration or the model's fields. -/
def Obligations.CommandsWriteByAccessMatrix : Prop :=
  ∀ (i : Instr) (s : State), ∃ t r, exec i s = .next t ∧ t.phase = .resp r ∧
    t.cfg = s.cfg ∧ t.host = s.host ∧ t.execDraws = s.execDraws ∧
    (i.mnemonic ∉ [.compute, .pushx, .clear] → t.x = s.x) ∧
    (i.mnemonic ∉ [.compute, .pushy, .clear] → t.y = s.y) ∧
    (i.mnemonic ≠ .compute → t.last = s.last ∧ t.outcode = s.outcode) ∧
    (i.mnemonic ∉ [.compute, .clrstat] → r.err = .ok → t.status = s.status)

/-- 10_state.md R38: the read half of the access matrix. Changing X changes the outcome of no command but COMPUTE, GETX and
RDREG beyond X itself, changing Y that of none but COMPUTE, GETY and RDREG, and changing LAST and OUTCODE that of none but
RDREG. -/
def Obligations.CommandsReadByAccessMatrix : Prop :=
  ∀ (i : Instr) (s : State),
    (i.mnemonic ∉ [.compute, .getx, .rdreg] → ∀ b : History, ∃ t t',
      exec i s = .next t ∧ exec i { s with x := b } = .next t' ∧ t' = { t with x := t'.x }) ∧
    (i.mnemonic ∉ [.compute, .gety, .rdreg] → ∀ b : History, ∃ t t',
      exec i s = .next t ∧ exec i { s with y := b } = .next t' ∧ t' = { t with y := t'.y }) ∧
    (i.mnemonic ≠ .rdreg → ∀ (last : Int) (outcode : Nat), ∃ t t',
      exec i s = .next t ∧ exec i { s with last := last, outcode := outcode } = .next t' ∧
      t' = { t with last := t'.last, outcode := t'.outcode })

/-- 20_memory.md R52: a pushing command leaves every slot but the one at the cursor, and no command but CLEAR changes any
other slot. -/
def Obligations.PushLeavesOtherSlots : Prop :=
  ∀ (i : Instr) (s t : State), exec i s = .next t → i ≠ .clear →
    (∀ j, j ≠ s.x.wp → t.x.slots[j]? = s.x.slots[j]?) ∧
    (∀ j, j ≠ s.y.wp → t.y.slots[j]? = s.y.slots[j]?)

/-- 10_state.md R37: STATUS decides no command. Two states that differ only in STATUS give states that differ only in
STATUS, and the same response but for CLRSTAT and the RDREG of STATUS. -/
def Obligations.StatusDecidesNoCommand : Prop :=
  ∀ (i : Instr) (s : State) (st : StatusBits), ∃ t t',
    exec i s = .next t ∧ exec i { s with status := st } = .next t' ∧
    t' = { t with status := t'.status, phase := t'.phase } ∧
    (i.mnemonic ≠ .clrstat → i ≠ .rdreg 0#8 → t'.phase = t.phase)

/-- 40_history_buffer.md R100: the history-buffer commands neither read nor write LAST and OUTCODE. -/
def Obligations.HistoryCommandsIgnoreOutputRegisters : Prop :=
  ∀ (i : Instr) (s t : State) (last : Int) (outcode : Nat),
    i.mnemonic ∈ [.pushx, .pushy, .getx, .gety, .clear] → exec i s = .next t →
    exec i { s with last := last, outcode := outcode } =
      .next { t with last := last, outcode := outcode }

/-- 20_memory.md R59: GETX, GETY, RDCOEF and RDREG repeated give the same state and response. -/
def Obligations.ReadsAreIdempotent : Prop :=
  ∀ (i : Instr) (s t : State), i.mnemonic ∈ [.getx, .gety, .rdcoef, .rdreg] →
    exec i s = .next t → exec i t = .next t

/-! ## The history buffers -/

/-- 20_memory.md R54: after m pushes into a buffer of zeros, whatever its cursor, distance D reads the push D before the
last, and 0 where there were not so many. -/
def Obligations.ReadAfterPushes : Prop :=
  ∀ (n wp dist : Nat) (vs : List Int), wp < n → dist < n →
    History.get n (History.pushAll n ⟨List.replicate n 0, wp⟩ vs) dist =
      if dist < vs.length then vs.getD (vs.length - 1 - dist) 0 else 0

/-- 40_history_buffer.md R103: N+1 pushes into any buffer leave the last N readable, the newest at distance 0. -/
def Obligations.PushesEvictOldest : Prop :=
  ∀ (n w : Nat) (b : History) (vs : List Int) (dist : Nat), b.WellFormed n w →
    vs.length = n + 1 → dist < n →
    History.get n (b.pushAll n vs) dist = vs.getD (n - dist) 0

/-- 40_history_buffer.md R106: in a run from cold histories without PUSHX, PUSHY or CLEAR, after COMPUTE n, GETX -D returns
x[n-D] and GETY -D returns y[n-D], which are 0 before the first. -/
def Obligations.HistoryAfterComputes : Prop :=
  ∀ (s : State) (is : List Instr) (n dist : Nat), s.HistoriesCold → FilterUndisturbed is →
    (computeOperands is).length = n + 1 → dist < s.cfg.n →
    let ds := computeOperands is
    let t := runCommands is s
    let answer (v : Int) : Host.Outcome State Fault Refusal :=
      .next { t with phase := .resp ⟨(BitVec.ofInt s.cfg.accW v).toNat, .ok, false⟩ }
    exec (.getx (BitVec.ofNat 8 dist)) t =
      answer (if dist ≤ n then sampleOf s.cfg ds (n - dist) else 0) ∧
    exec (.gety (BitVec.ofNat 8 dist)) t =
      answer (if dist ≤ n then accumulatorOf s ds (n - dist) else 0)

/-- 40_history_buffer.md R107: a run of COMPUTEs after CLEAR gives the histories, LAST and OUTCODE it gives after reset. -/
def Obligations.ClearRestartsTheFilter : Prop :=
  ∀ (s t : State) (host : List Pins) (draws : Nat) (ds : List Nat), exec .clear s = .next t →
    let a := runCommands (ds.map Instr.compute) t
    let b := runCommands (ds.map Instr.compute) (State.cold s.cfg host draws)
    a.x = b.x ∧ a.y = b.y ∧ (ds ≠ [] → a.last = b.last ∧ a.outcode = b.outcode)

/-! ## The engine's arithmetic -/

/-- 41_engine.md R125, R126: the pushed accumulator is the value of the signed ACC_W range congruent to the exact sum;
ACCOVF is set exactly when the sum lies outside that range, and the wrapped value is what is scaled. -/
def Obligations.AccumulatorWrapsAndLatches : Prop :=
  ∀ (d : Nat) (s : State), s.Inv → ∃ t, exec (.compute d) s = .next t ∧
    let sum := tapSum s.cfg t.x s.y
    let acc := t.y.get s.cfg.n 0
    InSigned s.cfg.accW acc ∧
    (2 : Int) ^ s.cfg.accW ∣ sum - acc ∧
    (InSigned s.cfg.accW sum → acc = sum) ∧
    (flagAccovf t.status = true ↔ flagAccovf s.status = true ∨ ¬ InSigned s.cfg.accW sum) ∧
    t.last = Int.tdiv (acc * s.cfg.snum) s.cfg.sden

/-- 41_engine.md R127, R134: the scaled output is the exact product divided toward zero, and fits 2·ACC_W bits. -/
def Obligations.ScaledOutputTruncatesAndFits : Prop :=
  ∀ (c : Config) (acc : Int), InSigned c.accW acc →
    let product := acc * c.snum
    let q := scaledOutput c acc
    q.natAbs = product.natAbs / c.sden.natAbs ∧
    (0 ≤ product * c.sden → 0 ≤ q) ∧
    (product * c.sden ≤ 0 → q ≤ 0) ∧
    product.natAbs ≤ 2 ^ (2 * c.accW - 2) ∧
    q.natAbs ≤ 2 ^ (2 * c.accW - 2) ∧
    InSigned (2 * c.accW) q

/-- 41_engine.md R130: the response of COMPUTE carries the low ACC_W bits of q, exact for a small q, with ovf, no error,
and its low OUT_W bits are the committed value, which drives `out_code`. -/
def Obligations.ComputeResponseCarriesCommittedValue : Prop :=
  ∀ (d : Nat) (s : State), ∃ t r, exec (.compute d) s = .next t ∧ t.phase = .resp r ∧
    r.data = (BitVec.ofInt s.cfg.accW t.last).toNat ∧
    r.err = .ok ∧
    r.ovf = decide ((2 : Int) ^ s.cfg.outW ≤ t.last) ∧
    (t.last.natAbs < 2 ^ (s.cfg.accW - 1) → (BitVec.ofNat s.cfg.accW r.data).toInt = t.last) ∧
    r.data % 2 ^ s.cfg.outW = t.outcode ∧
    t.outcode = (t.last % 2 ^ s.cfg.outW).toNat ∧
    t.ports.outCode = t.outcode

/-- 41_engine.md R124: the pushed accumulator is also the wrapped sum of the wrapped products, in any order of the taps. -/
def Obligations.AccumulatorFromWrappedProducts : Prop :=
  ∀ (c : Config) (x y : History) (order order' : List Nat),
    order.Perm (List.range c.n) → order'.Perm (List.range (c.n - 1)) →
    wrapTo c.accW (tapSum c x y) =
      wrapTo c.accW
        ((order.map fun i => wrapTo c.accW (numTap c i * x.get c.n i)).sum +
          (order'.map fun j => wrapTo c.accW (denTap c (j + 1) * y.get c.n (j + 1))).sum)

/-- 41_engine.md R131: the difference equation in sample-index form. DEN[i] weights y[n-1-i], x and y are 0 before the first
COMPUTE, and commands in between that are not PUSHX, PUSHY or CLEAR leave the run of the COMPUTEs as it is. -/
def Obligations.DifferenceEquation : Prop :=
  (∀ (s : State) (ds : List Nat) (n : Nat), s.HistoriesCold → n < ds.length →
    accumulatorOf s ds n =
      (BitVec.ofInt s.cfg.accW
        (∑ i ∈ Finset.range s.cfg.n,
            s.cfg.num.getD i 0 * (if i ≤ n then sampleOf s.cfg ds (n - i) else 0) +
          ∑ i ∈ Finset.Ico 1 s.cfg.n,
            s.cfg.den.getD (i - 1) 0 *
              (if i + 1 ≤ n then accumulatorOf s ds (n - 1 - i) else 0))).toInt) ∧
    (∀ (s : State) (is : List Instr), FilterUndisturbed is →
      let a := runCommands is s
      let b := runCommands ((computeOperands is).map Instr.compute) s
      a.x = b.x ∧ a.y = b.y ∧ a.last = b.last ∧ a.outcode = b.outcode)

/-- 41_engine.md R132: with no feedback and scale 1/1, the response to a unit impulse is the numerator followed by zeros,
scaled output and accumulator being equal. -/
def Obligations.ImpulseResponseIsNumerator : Prop :=
  ∀ (s : State) (ds : List Nat) (n : Nat), s.HistoriesCold →
    (∀ v ∈ s.cfg.den, v = 0) → s.cfg.snum = 1 → s.cfg.sden = 1 → n < ds.length →
    (∀ m, m < ds.length → sampleOf s.cfg ds m = if m = 0 then 1 else 0) →
    accumulatorOf s ds n = (if n < s.cfg.n then s.cfg.num.getD n 0 else 0) ∧
    (afterComputes s ds (n + 1)).last = accumulatorOf s ds n

/-- 41_engine.md R133: superposition of the accumulators modulo 2^ACC_W, and as integers when no run sets ACCOVF. -/
def Obligations.AccumulatorIsLinear : Prop :=
  ∀ (c : Config) (host : List Pins) (draws : Nat) (as bs cs : List Nat) (α β : Int) (n : Nat),
    as.length = cs.length → bs.length = cs.length → n < cs.length →
    (∀ m, m < cs.length → sampleOf c cs m = α * sampleOf c as m + β * sampleOf c bs m) →
    let s := State.cold c host draws
    (2 : Int) ^ c.accW ∣
        accumulatorOf s cs n - (α * accumulatorOf s as n + β * accumulatorOf s bs n) ∧
    ((∀ l ∈ [as, bs, cs], (afterComputes s l l.length).ArithmeticExact) →
      accumulatorOf s cs n = α * accumulatorOf s as n + β * accumulatorOf s bs n)

/-! ## One rising edge -/

/-- 30_encoding.md R74, R84, R93: at the last edge of EXEC, with `rst` = 0, the step is exec of the decoded command, or the
ILLEGAL refusal, at the state with the edge's pins taken. -/
def Obligations.StepRunsDecodedCommand : Prop :=
  ∀ (s : State) (w : CmdWord) (d left : Nat),
    s.pins.rst = false → s.phase = .exec w d left → left ≤ 1 →
    (∀ i, decode w d = .ok i → step s = exec i { s with host := s.host.tail }) ∧
    (∀ e, decode w d = .error e →
      step s = .next { s with
        host := s.host.tail, status := s.status ||| 0x01#5, phase := .resp ⟨0, .illegal, false⟩ })

/-- 30_encoding.md R73: a command offered in IDLE is latched on that edge and nothing else changes; on any other edge the
command pins have no effect. -/
def Obligations.AcceptanceLatchesCommand : Prop :=
  (∀ s : State, s.phase = .idle → s.pins.rst = false → s.pins.cmdValid = true →
    ∃ edges, 1 ≤ edges ∧
      step s = .next { s with
        host := s.host.tail
        phase := .exec s.pins.cmdWord (s.pins.cmdData % 2 ^ s.cfg.accW) edges
        execDraws := s.execDraws + 1 }) ∧
  (∀ (s : State) (p q : Pins) (rest : List Pins),
    p.rst = q.rst → p.rspReady = q.rspReady → p.cmdValid = q.cmdValid →
    (s.phase ≠ .idle ∨ p.cmdValid = false ∨ p.rst = true) →
    step { s with host := p :: rest } = step { s with host := q :: rest })

/-- 30_encoding.md R74: in EXEC with `left` edges to go and no reset, nothing changes before the last edge, and the last one
applies the whole effect of the command and presents its response. -/
def Obligations.CommandCommitsAtItsLastEdge : Prop :=
  ∀ (s : State) (w : CmdWord) (d left : Nat), s.phase = .exec w d left → 1 ≤ left →
    (∀ j, j < left → (s.pinsAt j).rst = false) →
    (∀ j, j < left →
      runEdges j s = { s with host := s.host.drop j, phase := .exec w d (left - j) }) ∧
    ∃ t r, runCommand w d { s with host := s.host.drop left, phase := .exec w d 1 } = .next t ∧
      runEdges left s = t ∧ t.phase = .resp r

/-- 30_encoding.md R75, with the codes of R85 and 60_exceptions.md R171: a response is presented unchanged until the first edge with `rsp_ready` = 1, which hands it over and
returns to IDLE; there is no timeout. -/
def Obligations.ResponseHeldUntilReady : Prop :=
  ∀ (s : State) (r : Response) (k : Nat), s.phase = .resp r →
    (∀ j, j < k → (s.pinsAt j).rst = false ∧ (s.pinsAt j).rspReady = false) →
    runEdges k s = { s with host := s.host.drop k } ∧
    (runEdges k s).ports.rspValid = true ∧
    (runEdges k s).ports.rspData = r.data ∧
    (r.err = .ok → (runEdges k s).ports.rspErr = 0#2) ∧
    (r.err = .illegal → (runEdges k s).ports.rspErr = 1#2) ∧
    (r.err = .range → (runEdges k s).ports.rspErr = 2#2) ∧
    (runEdges k s).ports.rspOvf = r.ovf ∧
    ((s.pinsAt k).rst = false → (s.pinsAt k).rspReady = true →
      runEdges (k + 1) s = { s with host := s.host.drop (k + 1), phase := .idle })

/-- 30_encoding.md R76, 70_reset_and_hazards.md R205: no command is accepted between an acceptance and T_EXEC + 2 edges
later, since the core is not in IDLE. T_EXEC is the free value of log 3, whatever it is. -/
def Obligations.NoAcceptanceWhileBusy : Prop :=
  ∀ s : State, s.phase = .idle → s.pins.cmdValid = true →
    let edges := Config.execTime s.execDraws s.pins.cmdWord (s.pins.cmdData % 2 ^ s.cfg.accW)
    (∀ j, j ≤ edges → (s.pinsAt j).rst = false) →
    ∀ j, 1 ≤ j → j ≤ edges + 1 →
      (runEdges j s).phase ≠ .idle ∧ (runEdges j s).ports.cmdReady = false ∧
      (runEdges j s).ports.busy = true

/-- 10_state.md R34, 30_encoding.md R73 to R76: the phases follow each other only as INIT, IDLE, EXEC, RESP, IDLE, and by
reset. -/
def Obligations.PhaseFollowsTheProtocol : Prop :=
  ∀ s t : State, step s = .next t → s.pins.rst = false →
    match s.phase, t.phase with
    | .init k, .init k' => k' + 1 = k
    | .init k, .idle => k ≤ 1
    | .idle, .idle => s.pins.cmdValid = false
    | .idle, .exec w _ _ => s.pins.cmdValid = true ∧ w = s.pins.cmdWord
    | .exec w d left, .exec w' d' left' => w' = w ∧ d' = d ∧ left' + 1 = left
    | .exec _ _ left, .resp _ => left ≤ 1
    | .resp r, .resp r' => r' = r ∧ s.pins.rspReady = false
    | .resp _, .idle => s.pins.rspReady = true
    | _, _ => False

/-- 30_encoding.md R72: the output ports as functions of the state and of `rst`, the value of it that the coming edge
samples (R70); `rsp_err` carries the codes of R85 and 60_exceptions.md R171. -/
def Obligations.OutputPortsShowTheState : Prop :=
  ∀ s : State,
    (s.ports.cmdReady = true ↔ s.phase = .idle ∧ s.pins.rst = false) ∧
    (s.ports.busy = true ↔ s.phase ≠ .idle ∨ s.pins.rst = true) ∧
    (s.ports.rspValid = true ↔ ∃ r, s.phase = .resp r) ∧
    (∀ r, s.phase = .resp r →
      s.ports.rspData = r.data ∧ s.ports.rspOvf = r.ovf ∧
      (r.err = .ok → s.ports.rspErr = 0#2) ∧
      (r.err = .illegal → s.ports.rspErr = 1#2) ∧
      (r.err = .range → s.ports.rspErr = 2#2)) ∧
    ((∀ r, s.phase ≠ .resp r) →
      s.ports.rspData = 0 ∧ s.ports.rspErr = 0#2 ∧ s.ports.rspOvf = false) ∧
    s.ports.outCode = s.outcode ∧
    s.ports.outOvf = s.status.getLsbD 4 ∧
    (s.ports.alert = true ↔
      s.status.getLsbD 0 = true ∨ s.status.getLsbD 1 = true ∨ s.status.getLsbD 2 = true)

/-! ## Reset -/

/-- 70_reset_and_hazards.md R190, 10_state.md R36: an edge with `rst` = 1 gives every element its reset value, whatever the
phase, keeps the constants, and accepts no command. -/
def Obligations.ResetEdgeSetsEveryElement : Prop :=
  ∀ s : State, s.pins.rst = true →
    s.ports.cmdReady = false ∧
    step s = .next {
      cfg := s.cfg
      x := ⟨List.replicate s.cfg.n 0, 0⟩
      y := ⟨List.replicate s.cfg.n 0, 0⟩
      status := 0#5
      last := 0
      outcode := 0
      phase := if s.cfg.tInit = 0 then .idle else .init s.cfg.tInit
      host := s.host.tail
      execDraws := s.execDraws }

/-- 70_reset_and_hazards.md R191: after the last reset edge the core is in INIT for T_INIT edges, busy and not ready, every
slot 0, and then in IDLE; T_INIT is at most N. -/
def Obligations.InitLastsItsEdges : Prop :=
  ∀ (c : Config) (host : List Pins) (draws j : Nat), j ≤ c.tInit →
    (∀ k, k < j → ((State.cold c host draws).pinsAt k).rst = false) →
    let t := runEdges j (State.cold c host draws)
    t = { State.cold c (host.drop j) draws with
      phase := if j = c.tInit then .idle else .init (c.tInit - j) } ∧
    (j < c.tInit → t.ports.busy = true ∧ t.ports.cmdReady = false) ∧
    c.tInit ≤ c.n

/-- 70_reset_and_hazards.md R192, R193: the ports from a reset edge on. -/
def Obligations.PortsAfterResetEdge : Prop :=
  ∀ s t : State, s.pins.rst = true → step s = .next t →
    t.ports.rspValid = false ∧ t.ports.rspData = 0 ∧ t.ports.rspErr = 0#2 ∧
    t.ports.rspOvf = false ∧ t.ports.outCode = 0 ∧ t.ports.outOvf = false ∧
    t.ports.alert = false ∧
    (t.ports.busy = true ↔ t.pins.rst = true ∨ 0 < s.cfg.tInit) ∧
    (t.ports.cmdReady = true ↔ t.pins.rst = false ∧ s.cfg.tInit = 0)

/-! ## Invariants and whole-machine rules -/

/-- 10_state.md R21 to R23, R28 to R30, R34, 41_engine.md R127 to R129: every step keeps the invariant. -/
def Obligations.StepKeepsInvariant : Prop :=
  ∀ s t : State, s.Inv → step s = .next t → t.Inv

/-- 10_state.md R36: the reset state of every configuration meets the invariant, and so does `State.reset` (whose
configuration is the choice of log 2). -/
def Obligations.ResetMeetsInvariant : Prop :=
  (∀ (c : Config) (host : List Pins) (draws : Nat), (State.cold c host draws).Inv) ∧
    State.reset.Inv

/-- 30_encoding.md R93: Step is total: every command word and operand is answered with one state and one response, and
every edge gives a next state. -/
def Obligations.StepIsTotal : Prop :=
  (∀ (w : CmdWord) (d : Nat) (s : State), ∃ t r, runCommand w d s = .next t ∧ t.phase = .resp r) ∧
    (∀ s : State, ∃ t, step s = .next t)

/-- 10_state.md R24, 70_reset_and_hazards.md R195: no edge changes the coefficient set or a parameter. -/
def Obligations.ConfigurationNeverChanges : Prop :=
  ∀ (k : Nat) (s : State), (runEdges k s).cfg = s.cfg

/-- 10_state.md R23, R28 to R30: without reset, X, Y, LAST, OUTCODE and LASTOVF change only at the commit of a command that
writes them. -/
def Obligations.StateChangesOnlyByNamedCommands : Prop :=
  ∀ s t : State, step s = .next t → s.pins.rst = false →
    (t.x ≠ s.x → ∃ i, s.commits i ∧ i.mnemonic ∈ [.compute, .pushx, .clear]) ∧
    (t.y ≠ s.y → ∃ i, s.commits i ∧ i.mnemonic ∈ [.compute, .pushy, .clear]) ∧
    (t.last ≠ s.last ∨ t.outcode ≠ s.outcode ∨ flagLastovf t.status ≠ flagLastovf s.status →
      ∃ d, s.commits (.compute d))

/-- 10_state.md R27: a sticky bit that is set stays set unless the edge resets or commits a CLRSTAT that names it. -/
def Obligations.StickyBitsClearedOnlyByClrstatOrReset : Prop :=
  ∀ (s t : State) (k : Nat), step s = .next t → k < 4 →
    s.status.getLsbD k = true → t.status.getLsbD k = false →
    s.pins.rst = true ∨ ∃ d, s.commits (.clrstat d) ∧ d.testBit k = true

/-- 10_state.md R27, R37: a STATUS bit that is clear is set only by its cause (60_exceptions.md R171): ILL by a word that does
not decode, RNG by a distance or index the configuration does not define, ACCOVF by a COMPUTE whose exact sum lies outside
the signed ACC_W range, OUTOVF and LASTOVF by a COMPUTE whose q is at least 2^OUT_W. -/
def Obligations.StatusBitsSetOnlyByTheirCause : Prop :=
  ∀ (s t : State) (k : Nat), step s = .next t →
    s.status.getLsbD k = false → t.status.getLsbD k = true →
    ∃ w d left, s.phase = .exec w d left ∧ left ≤ 1 ∧ s.pins.rst = false ∧
      (k = 0 → ∃ e, decode w d = .error e) ∧
      (k = 1 → t.phase = .resp ⟨0, .range, false⟩ ∧ ∃ i, decode w d = .ok i ∧
        match i with
        | .getx dist => s.cfg.n ≤ dist.toNat
        | .gety dist => s.cfg.n ≤ dist.toNat
        | .rdcoef .num index => s.cfg.n ≤ index.toNat
        | .rdcoef .den index => index.toNat = 0 ∨ s.cfg.n ≤ index.toNat
        | .rdreg index => 8 ≤ index.toNat
        | _ => False) ∧
      (2 ≤ k → ∃ x, decode w d = .ok (.compute x)) ∧
      (k = 2 → ¬ InSigned s.cfg.accW (tapSum s.cfg t.x s.y)) ∧
      (3 ≤ k → (2 : Int) ^ s.cfg.outW ≤ t.last)

/-! ## The assembler -/

/-- 30_encoding.md R90 to R92: which commands each assembler command stands for, GETX and GETY apart
(AssembledOffsetIsDistance). What assembles is a list of well-formed commands; an `<imm>` gives its low ACC_W bits in its
range and is an error outside; an index gives itself in 0 to 255 and is an error outside; the pseudo-instructions are
R91's. -/
def Obligations.AssembledCommandsAreWellFormed : Prop :=
  ∀ c : Config,
    (∀ (a : AsmCmd) (is : List Instr), assemble c a = some is →
      is ≠ [] ∧ ∀ i ∈ is, i.wellFormed c = true) ∧
    (∀ p ∈ [(AsmCmd.nop, [Instr.nop]), (.clear, [.clear]),
        (.rdstat, [.rdreg 0#8]), (.rdcfg, [.rdreg 1#8]), (.rdcur, [.rdreg 2#8]),
        (.rdlast, [.rdreg 3#8, .rdreg 4#8]), (.clrall, [.clrstat 0xF])],
      assemble c p.1 = some p.2) ∧
    (∀ imm : Int, -(2 : Int) ^ (c.accW - 1) ≤ imm → imm < (2 : Int) ^ c.accW →
      let d := (BitVec.ofInt c.accW imm).toNat
      assemble c (.compute imm) = some [.compute d] ∧ assemble c (.pushx imm) = some [.pushx d] ∧
      assemble c (.pushy imm) = some [.pushy d] ∧ assemble c (.clrstat imm) = some [.clrstat d]) ∧
    (∀ imm : Int, imm < -(2 : Int) ^ (c.accW - 1) ∨ (2 : Int) ^ c.accW ≤ imm →
      assemble c (.compute imm) = none ∧ assemble c (.pushx imm) = none ∧
      assemble c (.pushy imm) = none ∧ assemble c (.clrstat imm) = none) ∧
    (∀ k : Int, 0 ≤ k → k ≤ 255 → ∃ index : Index, (index.toNat : Int) = k ∧
      (∀ bank, assemble c (.rdcoef bank k) = some [.rdcoef bank index]) ∧
      assemble c (.rdreg k) = some [.rdreg index]) ∧
    (∀ k : Int, k < 0 ∨ 255 < k →
      (∀ bank, assemble c (.rdcoef bank k) = none) ∧ assemble c (.rdreg k) = none)

/-- 30_encoding.md R90, 20_memory.md R51: GETX and GETY assemble exactly for offsets 0 to -255, to the distance -off. -/
def Obligations.AssembledOffsetIsDistance : Prop :=
  ∀ (c : Config) (off : Int),
    (-255 ≤ off → off ≤ 0 → ∃ dist : Index, (dist.toNat : Int) = -off ∧
      assemble c (.getx off) = some [.getx dist] ∧ assemble c (.gety off) = some [.gety dist]) ∧
    (off < -255 ∨ 0 < off → assemble c (.getx off) = none ∧ assemble c (.gety off) = none)

/-- 30_encoding.md R90, R91: which assembler command a mnemonic in any case and its operand tokens stand for, and the index
of each register name. That the comma of RDCOEF is a token of its own, and that an offset or index takes the forms of an
`<imm>`, is the model's choice (log 10). -/
def Obligations.MnemonicsSelectTheirCommands : Prop :=
  ∀ m : List Char,
    (∀ p ∈ [("NOP", AsmCmd.nop), ("CLEAR", .clear), ("RDSTAT", .rdstat), ("RDCFG", .rdcfg),
        ("RDCUR", .rdcur), ("RDLAST", .rdlast), ("CLRALL", .clrall)],
      m.map Char.toUpper = p.1.toList → commandOf [m] = some p.2) ∧
    (∀ p ∈ [("COMPUTE", AsmCmd.compute), ("PUSHX", .pushx), ("PUSHY", .pushy), ("GETX", .getx),
        ("GETY", .gety), ("CLRSTAT", .clrstat)],
      m.map Char.toUpper = p.1.toList → ∀ tok, commandOf [m, tok] = (numberOf tok).map p.2) ∧
    (m.map Char.toUpper = "RDREG".toList →
      (∀ p ∈ [("STATUS", (0 : Int)), ("CONFIG", 1), ("CURSOR", 2), ("LASTLO", 3), ("LASTHI", 4),
          ("SCALENUM", 5), ("SCALEDEN", 6), ("OUTCODE", 7)],
        commandOf [m, p.1.toList] = some (.rdreg p.2)) ∧
      (∀ tok v, numberOf tok = some v → commandOf [m, tok] = some (.rdreg v))) ∧
    (m.map Char.toUpper = "RDCOEF".toList → ∀ tok,
      commandOf [m, "NUM".toList, [','], tok] = (numberOf tok).map (AsmCmd.rdcoef .num) ∧
      commandOf [m, "DEN".toList, [','], tok] = (numberOf tok).map (AsmCmd.rdcoef .den))
end

