-- ==== Sys2Proof/Laws/Decode.lean ====
section
/-! SUPPORT. The fields of a packed word (30_encoding.md R78). -/

namespace Sys2Proof

section
variable (s : BitVec 1) (dist : Index) (op : BitVec 4)

theorem packWord_getLsbD (k : Nat) :
    (packWord s dist op).getLsbD k =
      if k < 4 then op.getLsbD k
      else if k < 8 then false
      else if k < 16 then dist.getLsbD (k - 8)
      else if k < 17 then s.getLsbD (k - 16)
      else false := by
  unfold packWord
  simp only [BitVec.getLsbD_append]
  by_cases h0 : k < 4
  · simp [h0]
  · by_cases h1 : k < 8
    · have : k - 4 < 4 := by omega
      simp [h0, h1, this]
    · by_cases h2 : k < 16
      · have h3 : ¬ k - 4 < 4 := by omega
        have h5 : k - 4 - 4 = k - 8 := by omega
        simp [h0, h1, h2, h3, h5]
        intro _; omega
      · by_cases h6 : k < 17
        · have h3 : ¬ k - 4 < 4 := by omega
          have h4 : ¬ k - 4 - 4 < 8 := by omega
          have h5 : k - 4 - 4 - 8 = k - 16 := by omega
          have h7 : k - 16 < 1 := by omega
          simp [h0, h1, h2, h3, h4, h5, h6, h7]
        · have h3 : ¬ k - 4 < 4 := by omega
          have h4 : ¬ k - 4 - 4 < 8 := by omega
          have h5 : ¬ k - 4 - 4 - 8 < 1 := by omega
          simp [h0, h1, h2, h3, h4, h5, h6]

@[simp] theorem opField_packWord : opField (packWord s dist op) = op := by
  apply BitVec.eq_of_getLsbD_eq
  intro k hk
  simp [opField, packWord_getLsbD, hk]

@[simp] theorem indexField_packWord : indexField (packWord s dist op) = dist := by
  apply BitVec.eq_of_getLsbD_eq
  intro k hk
  have h0 : ¬ 8 + k < 4 := by omega
  have h2 : 8 + k < 16 := by omega
  simp [indexField, packWord_getLsbD, hk, h0, h2]

@[simp] theorem bankField_packWord :
    bankField (packWord s dist op) = if s.getLsbD 0 then .den else .num := by
  rw [bankField, packWord_getLsbD]
  norm_num

end

/-- A word decodes to a command exactly when its opcode selects it and its unused bits are 0 (30_encoding.md R84). -/
theorem decode_ok_iff (w : CmdWord) (d : Nat) (i : Instr) :
    decode w d = .ok i ↔
      selectCommand (opField w) (indexField w) (bankField w) d = some i ∧
        w &&& ~~~(0x0000000F#32 ||| usedBits (opField w)) = 0#32 := by
  unfold decode
  cases selectCommand (opField w) (indexField w) (bankField w) d with
  | none => simp
  | some j =>
    by_cases hb : w &&& ~~~(0x0000000F#32 ||| usedBits (opField w)) = 0#32
    · simp only [if_pos hb]; simp [hb]
    · simp only [if_neg hb]; simp [hb]

/-- The command an opcode selects (30_encoding.md R79). -/
theorem selectCommand_cases (op : BitVec 4) (dist : Index) (bank : Bank) (d : Nat) :
    (op = 0#4 ∧ selectCommand op dist bank d = some .nop) ∨
    (op = 1#4 ∧ selectCommand op dist bank d = some (.compute d)) ∨
    (op = 2#4 ∧ selectCommand op dist bank d = some (.pushx d)) ∨
    (op = 3#4 ∧ selectCommand op dist bank d = some (.pushy d)) ∨
    (op = 4#4 ∧ selectCommand op dist bank d = some (.getx dist)) ∨
    (op = 5#4 ∧ selectCommand op dist bank d = some (.gety dist)) ∨
    (op = 6#4 ∧ selectCommand op dist bank d = some .clear) ∨
    (op = 7#4 ∧ selectCommand op dist bank d = some (.rdcoef bank dist)) ∨
    (op = 8#4 ∧ selectCommand op dist bank d = some (.rdreg dist)) ∨
    (op = 9#4 ∧ selectCommand op dist bank d = some (.clrstat d)) ∨
    (10 ≤ op.toNat ∧ selectCommand op dist bank d = none) := by
  have h : op = 0#4 ∨ op = 1#4 ∨ op = 2#4 ∨ op = 3#4 ∨ op = 4#4 ∨ op = 5#4 ∨ op = 6#4 ∨
      op = 7#4 ∨ op = 8#4 ∨ op = 9#4 ∨ 10 ≤ op.toNat := by revert op; decide
  rcases h with rfl | rfl | rfl | rfl | rfl | rfl | rfl | rfl | rfl | rfl | h
  all_goals first
    | simp [selectCommand]; done
    | skip
  have hn : selectCommand op dist bank d = none := by
    obtain ⟨j, hj⟩ : ∃ j, op.toNat = j + 10 := ⟨op.toNat - 10, by omega⟩
    unfold selectCommand
    rw [hj]
    rfl
  simp [h, hn]

/-- Which command an opcode selects, read from the command (30_encoding.md R79). -/
theorem selectCommand_eq_some_iff (op : BitVec 4) (dist : Index) (bank : Bank) (d : Nat) (i : Instr) :
    selectCommand op dist bank d = some i ↔
      match i with
      | .nop => op = 0#4
      | .compute d' => op = 1#4 ∧ d' = d
      | .pushx d' => op = 2#4 ∧ d' = d
      | .pushy d' => op = 3#4 ∧ d' = d
      | .getx dist' => op = 4#4 ∧ dist' = dist
      | .gety dist' => op = 5#4 ∧ dist' = dist
      | .clear => op = 6#4
      | .rdcoef bank' index => op = 7#4 ∧ index = dist ∧ bank' = bank
      | .rdreg index => op = 8#4 ∧ index = dist
      | .clrstat d' => op = 9#4 ∧ d' = d := by
  rcases selectCommand_cases op dist bank d with
    ⟨rfl, h⟩ | ⟨rfl, h⟩ | ⟨rfl, h⟩ | ⟨rfl, h⟩ | ⟨rfl, h⟩ | ⟨rfl, h⟩ | ⟨rfl, h⟩ | ⟨rfl, h⟩ | ⟨rfl, h⟩ |
    ⟨rfl, h⟩ | ⟨hop, h⟩
  all_goals rw [h]; cases i
  all_goals simp
  all_goals first
    | tauto
    | exact eq_comm
    | (rintro rfl; simp at hop)

/-- OP as the low four bits of the word in place (30_encoding.md R79). -/
theorem and_opMask (w : CmdWord) : w &&& 0xF#32 = (opField w).setWidth 32 := by
  apply BitVec.eq_of_getLsbD_eq
  intro k hk
  have h : (15#32).getLsbD k = decide (k < 4) := by revert k; decide
  rw [BitVec.getLsbD_and, h, BitVec.getLsbD_setWidth, opField, BitVec.getLsbD_extractLsb']
  simp [hk, Bool.and_comm]

/-- A match under a mask that holds OP is the opcode and zeros in the mask's other bits (30_encoding.md R86). -/
theorem and_mask_iff (w mask unused : CmdWord) (op : BitVec 4) (hm : mask = 0xF#32 ||| unused)
    (hu : unused &&& 0xF#32 = 0#32) :
    w &&& mask = op.setWidth 32 ↔ opField w = op ∧ w &&& unused = 0#32 := by
  subst hm
  have hop : opField w = op ↔ w &&& 0xF#32 = op.setWidth 32 := by
    rw [and_opMask]
    refine ⟨fun h => by rw [h], fun h => ?_⟩
    simpa using congrArg (BitVec.setWidth 4) h
  have hk : (op.setWidth 32 : CmdWord) &&& 0xF#32 = op.setWidth 32 := by
    clear hop; revert op; decide
  have hku : (op.setWidth 32 : CmdWord) &&& unused = 0#32 := by
    rw [← hk, BitVec.and_assoc, BitVec.and_comm 15#32, hu]; simp
  have e1 : (15#32 ||| unused) &&& 15#32 = 15#32 := by ext i hi; simp; tauto
  have e2 : (15#32 ||| unused) &&& unused = unused := by ext i hi; simp; tauto
  have e3 : w &&& (15#32 ||| unused) = (w &&& 15#32) ||| (w &&& unused) := by
    ext i hi; simp [Bool.and_or_distrib_left]
  rw [hop]
  refine ⟨fun h => ?_, fun ⟨h1, h2⟩ => by rw [e3, h1, h2]; simp⟩
  have h1 := congrArg (· &&& 0xF#32) h
  have h2 := congrArg (· &&& unused) h
  simp only [BitVec.and_assoc, hk, hku, e1, e2] at h1 h2
  exact ⟨h1, h2⟩

/-- A command whose opcode is `op` and whose other condition is `cond` decodes exactly from a match under the mask that holds
OP and the bits `op` does not use (30_encoding.md R84, R86). -/
theorem decode_ok_iff_and_mask (w : CmdWord) (d : Nat) (i : Instr) (mask unused : CmdWord)
    (op : BitVec 4) (cond : Prop) (hm : mask = 0xF#32 ||| unused) (hu : unused &&& 0xF#32 = 0#32)
    (hop : ~~~(0x0000000F#32 ||| usedBits op) = unused)
    (hs : selectCommand (opField w) (indexField w) (bankField w) d = some i ↔
      opField w = op ∧ cond) :
    decode w d = .ok i ↔ w &&& mask = op.setWidth 32 ∧ cond := by
  rw [decode_ok_iff, hs, and_mask_iff w mask unused op hm hu]
  constructor
  · rintro ⟨⟨h, hc⟩, hz⟩
    rw [h, hop] at hz
    exact ⟨⟨h, hz⟩, hc⟩
  · rintro ⟨⟨h, hz⟩, hc⟩
    exact ⟨⟨h, hc⟩, by rw [h, hop]; exact hz⟩

end Sys2Proof
end

