-- ==== Sys2Proof/Laws/Flags.lean ====
section
/-! SUPPORT. What each STATUS operation does to each named bit (10_state.md R27, R28; 42_control.md R154), and the two
overflow conditions as ranges (41_engine.md R125, R128). -/

namespace Sys2Proof.Machine

/-- Two STATUS patterns with the same five named bits are equal. -/
theorem status_ext (a b : StatusBits) (h0 : flagIll a = flagIll b) (h1 : flagRng a = flagRng b)
    (h2 : flagAccovf a = flagAccovf b) (h3 : flagOutovf a = flagOutovf b)
    (h4 : flagLastovf a = flagLastovf b) : a = b := by
  apply BitVec.eq_of_getLsbD_eq
  intro k hk
  match k, hk with
  | 0, _ => exact h0
  | 1, _ => exact h1
  | 2, _ => exact h2
  | 3, _ => exact h3
  | 4, _ => exact h4

section
variable (st : StatusBits) (c b : Bool) (m : BitVec 4)

@[simp] theorem flagIll_setIll : flagIll (setIll st) = true := by revert st; decide
@[simp] theorem flagRng_setIll : flagRng (setIll st) = flagRng st := by revert st; decide
@[simp] theorem flagAccovf_setIll : flagAccovf (setIll st) = flagAccovf st := by revert st; decide
@[simp] theorem flagOutovf_setIll : flagOutovf (setIll st) = flagOutovf st := by revert st; decide
@[simp] theorem flagLastovf_setIll : flagLastovf (setIll st) = flagLastovf st := by revert st; decide

@[simp] theorem flagIll_setRng : flagIll (setRng st) = flagIll st := by revert st; decide
@[simp] theorem flagRng_setRng : flagRng (setRng st) = true := by revert st; decide
@[simp] theorem flagAccovf_setRng : flagAccovf (setRng st) = flagAccovf st := by revert st; decide
@[simp] theorem flagOutovf_setRng : flagOutovf (setRng st) = flagOutovf st := by revert st; decide
@[simp] theorem flagLastovf_setRng : flagLastovf (setRng st) = flagLastovf st := by revert st; decide

@[simp] theorem flagIll_computeStatus : flagIll (computeStatus st c b) = flagIll st := by
  revert st c b; decide
@[simp] theorem flagRng_computeStatus : flagRng (computeStatus st c b) = flagRng st := by
  revert st c b; decide
@[simp] theorem flagAccovf_computeStatus :
    flagAccovf (computeStatus st c b) = (flagAccovf st || c) := by revert st c b; decide
@[simp] theorem flagOutovf_computeStatus :
    flagOutovf (computeStatus st c b) = (flagOutovf st || b) := by revert st c b; decide
@[simp] theorem flagLastovf_computeStatus : flagLastovf (computeStatus st c b) = b := by
  revert st c b; decide

@[simp] theorem flagIll_clearSticky :
    flagIll (clearSticky st m) = (flagIll st && !m.getLsbD 0) := by revert st m; decide
@[simp] theorem flagRng_clearSticky :
    flagRng (clearSticky st m) = (flagRng st && !m.getLsbD 1) := by revert st m; decide
@[simp] theorem flagAccovf_clearSticky :
    flagAccovf (clearSticky st m) = (flagAccovf st && !m.getLsbD 2) := by revert st m; decide
@[simp] theorem flagOutovf_clearSticky :
    flagOutovf (clearSticky st m) = (flagOutovf st && !m.getLsbD 3) := by revert st m; decide
@[simp] theorem flagLastovf_clearSticky : flagLastovf (clearSticky st m) = flagLastovf st := by
  revert st m; decide

end

/-- A bit of the clear mask is the bit of the data operand (30_encoding.md R83). -/
theorem clearMask_getLsbD (d k : Nat) (hk : k < 4) : (clearMask d).getLsbD k = d.testBit k := by
  rw [clearMask, BitVec.getLsbD_ofNat]
  simp only [hk, decide_true, Bool.true_and]

/-- The sum wraps exactly when it lies outside the signed ACC_W range (41_engine.md R125). -/
theorem accWrapped_iff (c : Config) (sum : Int) :
    accWrapped c sum = true ↔ ¬ InSigned c.accW sum := by
  have hw : 1 ≤ c.accW := by have := c.legal; omega
  rw [← wrapTo_eq_iff c.accW hw]
  rw [accWrapped, decide_eq_true_iff, ne_eq, eq_comm]

/-- The overflow indicator of a negative scaled output is 0 (41_engine.md R128). -/
theorem outOverflow_of_neg (c : Config) (q : Int) (h : q < 0) : outOverflow c q = false := by
  have := two_pow_pos_int c.outW
  simp only [outOverflow, decide_eq_false_iff_not]
  omega

end Sys2Proof.Machine
end

