-- ==== Sys2Proof/Laws/Exec.lean ====
section
/-! SUPPORT. What a command can do, said once for all ten (40_history_buffer.md, 41_engine.md, 42_control.md). -/

namespace Sys2Proof.Machine

/-- RDREG has a value exactly for the indexes 0 to 7 (42_control.md R153). -/
theorem registerValue_cases (s : State) (k : Nat) :
    (k < 8 ∧ ∃ v, registerValue s k = some v) ∨ (8 ≤ k ∧ registerValue s k = none) := by
  by_cases h : k < 8
  · refine .inl ⟨h, ?_⟩
    match k, h with
    | 0, _ | 1, _ | 2, _ | 3, _ | 4, _ | 5, _ | 6, _ | 7, _ => exact ⟨_, rfl⟩
  · obtain ⟨j, rfl⟩ : ∃ j, k = j + 8 := ⟨k - 8, by omega⟩
    exact .inr ⟨by omega, rfl⟩

/-- The next state of a command: one of the five writing commands with its own effect, a reading command that responds, or
a reading command that raises RANGE. -/
theorem exec_cases (i : Instr) (s : State) :
    (∃ d, i = .compute d ∧ exec i s =
      .next (({ s with x := s.x.push s.cfg.n (rawSample s.cfg d) } : State).commitSum
        (tapSum s.cfg (s.x.push s.cfg.n (rawSample s.cfg d)) s.y))) ∨
    (∃ d, i = .pushx d ∧ exec i s =
      .next (({ s with x := s.x.push s.cfg.n (rawSample s.cfg d) } : State).respond
        (rawSample s.cfg d) false)) ∨
    (∃ d, i = .pushy d ∧ exec i s =
      .next (({ s with y := s.y.push s.cfg.n (pushValue s.cfg d) } : State).respond
        (pushValue s.cfg d) false)) ∨
    (i = .clear ∧ exec i s =
      .next (({ s with x := History.cold s.cfg.n, y := History.cold s.cfg.n } : State).respond
        0 false)) ∨
    (∃ d, i = .clrstat d ∧ exec i s =
      .next (({ s with status := clearSticky s.status (clearMask d) } : State).respond
        s.status.toNat false)) ∨
    (i.mnemonic ∈ [.nop, .getx, .gety, .rdcoef, .rdreg] ∧
      ∃ v, exec i s = .next (s.respond v false)) ∨
    (i.mnemonic ∈ [.getx, .gety, .rdcoef, .rdreg] ∧ exec i s = .next (s.raise .range)) := by
  cases i with
  | nop => exact .inr (.inr (.inr (.inr (.inr (.inl ⟨by simp [Instr.mnemonic], _, rfl⟩)))))
  | compute d => exact .inl ⟨d, rfl, rfl⟩
  | pushx d => exact .inr (.inl ⟨d, rfl, rfl⟩)
  | pushy d => exact .inr (.inr (.inl ⟨d, rfl, rfl⟩))
  | getx dist =>
    simp only [exec, execGetx]
    split
    · exact .inr (.inr (.inr (.inr (.inr (.inl ⟨by simp [Instr.mnemonic], _, rfl⟩)))))
    · exact .inr (.inr (.inr (.inr (.inr (.inr ⟨by simp [Instr.mnemonic], rfl⟩)))))
  | gety dist =>
    simp only [exec, execGety]
    split
    · exact .inr (.inr (.inr (.inr (.inr (.inl ⟨by simp [Instr.mnemonic], _, rfl⟩)))))
    · exact .inr (.inr (.inr (.inr (.inr (.inr ⟨by simp [Instr.mnemonic], rfl⟩)))))
  | clear => exact .inr (.inr (.inr (.inl ⟨rfl, rfl⟩)))
  | rdcoef bank index =>
    simp only [exec, execRdcoef]
    split
    · exact .inr (.inr (.inr (.inr (.inr (.inl ⟨by simp [Instr.mnemonic], _, rfl⟩)))))
    · exact .inr (.inr (.inr (.inr (.inr (.inr ⟨by simp [Instr.mnemonic], rfl⟩)))))
  | rdreg index =>
    simp only [exec, execRdreg]
    rcases registerValue_cases s index.toNat with ⟨_, v, hv⟩ | ⟨_, hv⟩ <;> rw [hv]
    · exact .inr (.inr (.inr (.inr (.inr (.inl ⟨by simp [Instr.mnemonic], _, rfl⟩)))))
    · exact .inr (.inr (.inr (.inr (.inr (.inr ⟨by simp [Instr.mnemonic], rfl⟩)))))
  | clrstat d => exact .inr (.inr (.inr (.inr (.inl ⟨d, rfl, rfl⟩))))

end Sys2Proof.Machine
end

