-- ==== Sys2Proof/Laws/PerInstr.lean ====
section
/-! SUPPORT. A statement about every command as syntax: the word the encoder gives it is selected by the opcode-table row
of its mnemonic (30_encoding.md R86). -/

namespace Sys2Proof.Laws.TableRow

/-- Some row of the opcode table has the command's mnemonic and selects its word. -/
def Statement (i : Instr) : Prop :=
  ∃ r ∈ opcodeTable, r.mnemonic = i.mnemonic ∧ r.selects (encodeWord i) = true

theorem nop : Statement .nop := ⟨opcodeTable[0], by decide⟩

theorem compute (d : Nat) : Statement (.compute d) :=
  ⟨opcodeTable[1], by decide, rfl, by simp only [encodeWord]; decide⟩

theorem pushx (d : Nat) : Statement (.pushx d) :=
  ⟨opcodeTable[2], by decide, rfl, by simp only [encodeWord]; decide⟩

theorem pushy (d : Nat) : Statement (.pushy d) :=
  ⟨opcodeTable[3], by decide, rfl, by simp only [encodeWord]; decide⟩

theorem getx (dist : Index) : Statement (.getx dist) :=
  ⟨opcodeTable[4], by decide, rfl, by revert dist; decide⟩

theorem gety (dist : Index) : Statement (.gety dist) :=
  ⟨opcodeTable[5], by decide, rfl, by revert dist; decide⟩

theorem clear : Statement .clear := ⟨opcodeTable[6], by decide⟩

theorem rdcoef (bank : Bank) (index : Index) : Statement (.rdcoef bank index) :=
  ⟨opcodeTable[7], by decide, rfl, by cases bank <;> (revert index; decide)⟩

theorem rdreg (index : Index) : Statement (.rdreg index) :=
  ⟨opcodeTable[8], by decide, rfl, by revert index; decide⟩

theorem clrstat (d : Nat) : Statement (.clrstat d) :=
  ⟨opcodeTable[9], by decide, rfl, by simp only [encodeWord]; decide⟩

end Sys2Proof.Laws.TableRow
end

