-- ==== Sys2Proof/Laws/Runs.lean ====
section
/-! SUPPORT. Runs of commands and of edges, one at a time from either end (20_memory.md R60, 41_engine.md R131). -/

namespace Sys2Proof.Machine

/-- A run over a concatenation is the second run after the first. -/
theorem runCommands_append (as bs : List Instr) (s : State) :
    runCommands (as ++ bs) s = runCommands bs (runCommands as s) := by
  induction as generalizing s with
  | nil => rfl
  | cons i rest ih =>
    rcases exec_cases i s with ⟨d, _, h⟩ | ⟨d, _, h⟩ | ⟨d, _, h⟩ | ⟨_, h⟩ | ⟨d, _, h⟩ | ⟨_, v, h⟩ |
      ⟨_, h⟩ <;> simp only [List.cons_append, runCommands, h, ih]

/-- The n-th COMPUTE of a run acts on the state the ones before it leave (41_engine.md R120, R131). -/
theorem afterComputes_succ (s : State) (ds : List Nat) (n : Nat) (h : n < ds.length) :
    let u := afterComputes s ds n
    let x := u.x.push u.cfg.n (rawSample u.cfg (ds.getD n 0))
    afterComputes s ds (n + 1) =
      ({ u with x := x } : State).commitSum (tapSum u.cfg x u.y) := by
  intro u x
  have h1 : ds.take (n + 1) = ds.take n ++ [ds.getD n 0] := by
    rw [List.take_succ_eq_append_getElem h, List.getD_eq_getElem?_getD]
    simp [h]
  rw [afterComputes, h1, List.map_append, runCommands_append]
  rfl

/-- A run of COMPUTEs keeps the configuration (10_state.md R24). -/
theorem afterComputes_cfg (s : State) (ds : List Nat) (n : Nat) (h : n ≤ ds.length) :
    (afterComputes s ds n).cfg = s.cfg := by
  induction n with
  | zero => rfl
  | succ n ih =>
    rw [afterComputes_succ s ds n (by omega)]
    simp only [State.commitSum_cfg]
    exact ih (by omega)

/-- A step that answers a next state is the first of a run of edges. -/
theorem runEdges_succ (k : Nat) (s t : State) (h : step s = .next t) :
    runEdges (k + 1) s = runEdges k t := by
  simp [runEdges, h]

/-- The pins of the coming edge after `k` edges have been taken (log 1). -/
theorem pins_of_drop (s : State) (k : Nat) (p : Phase) (n : Nat) :
    ({ s with host := s.host.drop k, phase := p, execDraws := n } : State).pins = s.pinsAt k := by
  simp only [State.pins, State.pinsAt]
  rw [List.getD_eq_getElem?_getD, List.headD_eq_head?_getD, List.head?_drop]

end Sys2Proof.Machine
end

