-- ==== Sys2Proof/Tests/Slice0.lean ====
section
/-! SUPPORT. Small tests, each of one operation or one step, with expected values from the spec's own tables
(95_test_vectors.md and the examples of the rules), and a witness for the hypotheses of every statement that has any. -/

namespace Sys2Proof.Machine.Tests

/-! ## Configurations and states (95_test_vectors.md §0) -/

/-- SMALL_CFG. -/
def smallParams : Params :=
  { Params.repo with num := [2, -1, 3, 1], den := [1, -2, 0], snum := 1, sden := 1 }

/-- ID_CFG. -/
def idParams : Params :=
  { Params.repo with num := [1, 0, 0, 0], den := [0, 0, 0], snum := 1, sden := 1 }

/-- N1_CFG. -/
def n1Params : Params :=
  { Params.repo with log2n := 0, num := [5], den := [], snum := 1, sden := 1 }

/-- REPO_CFG with a RAM-based INIT of four edges. -/
def initParams : Params := { Params.repo with tInit := 4 }

theorem smallParams_legal : smallParams.Legal := by decide
theorem idParams_legal : idParams.Legal := by decide
theorem n1Params_legal : n1Params.Legal := by decide
theorem initParams_legal : initParams.Legal := by decide

def smallCfg : Config := ⟨smallParams, smallParams_legal⟩
def idCfg : Config := ⟨idParams, idParams_legal⟩
def n1Cfg : Config := ⟨n1Params, n1Params_legal⟩
def initCfg : Config := ⟨initParams, initParams_legal⟩

/-- Cold start under a configuration, quiet host. -/
def coldOf (c : Config) : State := State.cold c [] 0

/-- Cold start with the given histories. -/
def withHistories (c : Config) (x y : History) : State := { coldOf c with x := x, y := y }

/-- Cold start with the given STATUS. -/
def withStatus (st : StatusBits) : State := { coldOf Config.repo with status := st }

/-- The state an outcome carries, the reset state for a stop. -/
def stateOf : Host.Outcome State Fault Refusal → State
  | .next t => t
  | .fault _ => State.reset
  | .refused _ => State.reset

/-- The response an outcome leaves. -/
def responseOf (o : Host.Outcome State Fault Refusal) : Option Response := (stateOf o).phase.response

/-! ## The configuration check (00_scope.md R10), one ill-formed set of parameters per clause -/

theorem test_repo_elaborates : Params.repo.elaborate = some Config.repo := by decide
theorem test_log2n_over_8_refused : ¬ { Params.repo with log2n := 9 }.Legal := by decide
theorem test_accW_under_64_refused : ¬ { Params.repo with accW := 63 }.Legal := by decide
theorem test_accW_over_128_refused : ¬ { Params.repo with accW := 129 }.Legal := by decide
theorem test_inW_1_refused : ¬ { Params.repo with inW := 1 }.Legal := by decide
theorem test_inW_65_refused : ¬ { Params.repo with inW := 65 }.Legal := by decide
theorem test_outW_0_refused : ¬ { Params.repo with outW := 0 }.Legal := by decide
theorem test_outW_over_accW_refused : ¬ { Params.repo with outW := 65 }.Legal := by decide
theorem test_tInit_over_n_refused : ¬ { Params.repo with tInit := 5 }.Legal := by decide
theorem test_num_count_refused : ¬ { Params.repo with num := [1, 2, 3] }.Legal := by decide
theorem test_den_count_refused : ¬ { Params.repo with den := [1, 2, 3, 4] }.Legal := by decide
theorem test_num_range_refused : ¬ { Params.repo with num := [2 ^ 63, 0, 0, 0] }.Legal := by decide
theorem test_den_range_refused : ¬ { Params.repo with den := [0, -2 ^ 63 - 1, 0] }.Legal := by decide
theorem test_snum_range_refused : ¬ { Params.repo with snum := 2 ^ 63 }.Legal := by decide
theorem test_sden_range_refused : ¬ { Params.repo with sden := 2 ^ 63 }.Legal := by decide
theorem test_sden_zero_refused : ¬ { Params.repo with sden := 0 }.Legal := by decide

/-! ## WellFormed: an operand wider than the data port -/

theorem test_compute_operand_too_wide : (Instr.compute (2 ^ 64)).wellFormed Config.repo = false := by
  decide
theorem test_pushx_operand_too_wide : (Instr.pushx (2 ^ 64)).wellFormed Config.repo = false := by
  decide
theorem test_pushy_operand_too_wide : (Instr.pushy (2 ^ 64)).wellFormed Config.repo = false := by
  decide
theorem test_clrstat_operand_too_wide : (Instr.clrstat (2 ^ 64)).wellFormed Config.repo = false := by
  decide

/-! ## Decoding: words written out bit by bit from 30_encoding.md R78 and R86, and V-D1 to V-D13 -/

theorem test_decode_nop : decode 0b00000000000000000000000000000000#32 7 = .ok .nop := by decide
theorem test_decode_compute :
    decode 0b00000000000000000000000000000001#32 7 = .ok (.compute 7) := by decide
theorem test_decode_pushx :
    decode 0b00000000000000000000000000000010#32 7 = .ok (.pushx 7) := by decide
theorem test_decode_pushy :
    decode 0b00000000000000000000000000000011#32 7 = .ok (.pushy 7) := by decide
theorem test_decode_getx :
    decode 0b00000000000000000000001100000100#32 7 = .ok (.getx 3#8) := by decide
theorem test_decode_gety :
    decode 0b00000000000000001111111100000101#32 7 = .ok (.gety 255#8) := by decide
theorem test_decode_clear : decode 0b00000000000000000000000000000110#32 7 = .ok .clear := by decide
theorem test_decode_rdcoef_num :
    decode 0b00000000000000001000000000000111#32 7 = .ok (.rdcoef .num 128#8) := by decide
theorem test_decode_rdcoef_den :
    decode 0b00000000000000010000001000000111#32 7 = .ok (.rdcoef .den 2#8) := by decide
theorem test_decode_rdreg :
    decode 0b00000000000000000000011100001000#32 7 = .ok (.rdreg 7#8) := by decide
theorem test_decode_clrstat :
    decode 0b00000000000000000000000000001001#32 7 = .ok (.clrstat 7) := by decide

theorem test_decode_V_D2 : decode 0x00000100#32 0 = .error .reservedBits := by decide
theorem test_decode_V_D3 : decode 0x0000000A#32 0 = .error .reservedOpcode := by decide
theorem test_decode_V_D4 : decode 0x0000FF0F#32 0 = .error .reservedOpcode := by decide
theorem test_decode_V_D5 : decode 0x00000010#32 0 = .error .reservedBits := by decide
theorem test_decode_V_D6 : decode 0x80000001#32 0 = .error .reservedBits := by decide
theorem test_decode_V_D8 : decode 0x00010204#32 0 = .error .reservedBits := by decide
theorem test_decode_V_D13 : decode 0x00020007#32 0 = .error .reservedBits := by decide

/-- 30_encoding.md R92's assembled encodings. -/
theorem test_encode_R92 :
    [encodeWord (.getx 3#8), encodeWord (.gety 1#8), encodeWord (.rdcoef .den 2#8),
      encodeWord (.rdcoef .num 0#8), encodeWord (.rdreg 7#8), encodeWord (.compute 5)] =
    [0x00000304#32, 0x00000105#32, 0x00010207#32, 0x00000007#32, 0x00000708#32, 0x00000001#32] := by
  decide

theorem test_decodeTableWord : decodeTableWord 32 0x00010207 = some (.rdcoef .den 2#8) := by decide

/-! ## Arithmetic (41_engine.md R134, R135; 40_history_buffer.md R101) -/

theorem test_tdiv_R134 : [tdiv 7 2, tdiv (-7) 2, tdiv 7 (-2), tdiv (-7) (-2), tdiv 0 (-2)] =
    [3, -3, -3, 3, 0] := by decide

/-- The scaled output is not linear: 2 + 3 is not 6. -/
theorem test_scale_R135 : [scaledOutput Config.repo 2, scaledOutput Config.repo 3,
    scaledOutput Config.repo 5] = [2, 3, 6] := by decide

theorem test_rawSample_R101 : [rawSample Config.repo 0x1FFF, rawSample Config.repo 0x1000,
    rawSample Config.repo 0x2005, rawSample Config.repo 0xFFFFFFFFFFFFF000] =
    [-1, -4096, 5, -4096] := by decide

/-! ## The commands, one step each -/

theorem test_nop_V_C1 :
    responseOf (exec .nop (withStatus 0b11001#5)) = some ⟨0, .ok, false⟩ := by decide

theorem test_pushx_V_H1 :
    let o := exec (.pushx 0x1FFF) (coldOf Config.repo)
    responseOf o = some ⟨0xFFFFFFFFFFFFFFFF, .ok, false⟩ ∧
      (stateOf o).x = ⟨[-1, 0, 0, 0], 1⟩ := by decide

/-- V-H4: the cursor wraps to 0. -/
theorem test_pushx_V_H4 :
    (stateOf (exec (.pushx 0xFFFFFFFFFFFFF000)
      (withHistories Config.repo ⟨[-1, -4096, 5, 0], 3⟩ ⟨[0, 0, 0, 0], 0⟩))).x =
      ⟨[-1, -4096, 5, -4096], 0⟩ := by decide

theorem test_pushy_V_H6 :
    let o := exec (.pushy 0xFFFFFFFFFFFFFFF9) (coldOf Config.repo)
    responseOf o = some ⟨0xFFFFFFFFFFFFFFF9, .ok, false⟩ ∧
      (stateOf o).y = ⟨[-7, 0, 0, 0], 1⟩ := by decide

theorem test_pushy_V_H7 :
    (stateOf (exec (.pushy 0x8000000000000000)
      (withHistories Config.repo ⟨[0, 0, 0, 0], 0⟩ ⟨[-7, 0, 0, 0], 1⟩))).y =
      ⟨[-7, -9223372036854775808, 0, 0], 2⟩ := by decide

/-- V-S1 and P1: distances 0 and 3, and RANGE at 4. -/
theorem test_getx_V_S1 :
    let s := withHistories Config.repo ⟨[55, 22, 33, 44], 1⟩ ⟨[0, 0, 0, 0], 0⟩
    responseOf (exec (.getx 0#8) s) = some ⟨55, .ok, false⟩ ∧
      responseOf (exec (.getx 3#8) s) = some ⟨22, .ok, false⟩ := by decide

theorem test_getx_V_H9 :
    let o := exec (.getx 4#8) (coldOf Config.repo)
    responseOf o = some ⟨0, .range, false⟩ ∧ (stateOf o).status = 0b00010#5 := by decide

theorem test_gety_V_H7 :
    responseOf (exec (.gety 1#8)
      (withHistories Config.repo ⟨[0, 0, 0, 0], 0⟩ ⟨[-7, -9223372036854775808, 0, 0], 2⟩)) =
      some ⟨0xFFFFFFFFFFFFFFF9, .ok, false⟩ := by decide

theorem test_gety_V_H10 :
    responseOf (exec (.gety 255#8) (coldOf Config.repo)) = some ⟨0, .range, false⟩ := by decide

theorem test_clear_V_H12 :
    let o := exec .clear { withStatus 0b00101#5 with x := ⟨[9, 0, 0, 0], 1⟩, last := 3 }
    (stateOf o).x = ⟨[0, 0, 0, 0], 0⟩ ∧ (stateOf o).status = 0b00101#5 ∧ (stateOf o).last = 3 := by
  decide

theorem test_rdcoef_V_C4 :
    responseOf (exec (.rdcoef .den 1#8) (coldOf Config.repo)) =
      some ⟨0xFFFFFFBB4632F040, .ok, false⟩ := by decide

theorem test_rdcoef_V_C6 :
    responseOf (exec (.rdcoef .den 0#8) (coldOf Config.repo)) = some ⟨0, .range, false⟩ := by decide

theorem test_rdreg_V_C7 :
    responseOf (exec (.rdreg 1#8) (coldOf Config.repo)) = some ⟨0x00000001400C0D02, .ok, false⟩ := by
  decide

/-- V-C12: LASTHI of a negative LAST. -/
theorem test_rdreg_V_C12 :
    responseOf (exec (.rdreg 4#8) { coldOf Config.repo with last := -11345328336817137386 }) =
      some ⟨0xFFFFFFFFFFFFFFFF, .ok, false⟩ := by decide

theorem test_clrstat_V_C9 :
    let o := exec (.clrstat 0xF) (withStatus 0b11001#5)
    responseOf o = some ⟨0x19, .ok, false⟩ ∧ (stateOf o).status = 0b10000#5 := by decide

theorem test_clrstat_V_C10 :
    let o := exec (.clrstat 0x12) (withStatus 0b00011#5)
    responseOf o = some ⟨0x3, .ok, false⟩ ∧ (stateOf o).status = 0b00001#5 := by decide

theorem test_compute_V_E1 :
    let o := exec (.compute 1) (coldOf Config.repo)
    responseOf o = some ⟨0x000000000008E927, .ok, true⟩ ∧
      (stateOf o).outcode = 2343 ∧ (stateOf o).status = 0b11000#5 := by decide

/-- V-E3, n = 4: the accumulator wraps and ACCOVF is set. -/
theorem test_compute_V_E3 :
    let s := { withHistories Config.repo ⟨[1, 0, 0, 0], 0⟩
      ⟨[467263, 1401790, -137924356023598210, -278001687865532737], 0⟩ with status := 0b01000#5 }
    let o := exec (.compute 0) s
    responseOf o = some ⟨0x628D4BFCDFD75916, .ok, false⟩ ∧
      (stateOf o).y.slots.head? = some (-9077874603387427712) ∧
      (stateOf o).last = -11345328336817137386 ∧ (stateOf o).outcode = 2326 ∧
      (stateOf o).status = 0b01100#5 := by decide

/-- V-X3: ILLEGAL before RANGE, only ILL set. -/
theorem test_illegal_V_X3 :
    let o := runCommand 0x00010404#32 0 (coldOf Config.repo)
    responseOf o = some ⟨0, .illegal, false⟩ ∧ (stateOf o).status = 0b00001#5 ∧
      (stateOf o).ports.alert = true := by decide

/-- V-X4: an ILLEGAL CLRSTAT clears nothing. -/
theorem test_illegal_V_X4 :
    (stateOf (runCommand 0x80000009#32 0xF (withStatus 0b00100#5))).status = 0b00101#5 := by decide

/-! ## Edges -/

/-- The first instruction after reset: GETX -3 on a cold buffer, V-D7. -/
theorem test_step_runs_placed_word :
    responseOf (step (State.reset.withFetchWord 32 0x00000304)) = some ⟨0, .ok, false⟩ := by decide

/-- V-R2: reset while a COMPUTE is in EXEC. -/
theorem test_reset_in_exec_V_R2 :
    let p : Pins := { Pins.quiet with rst := true }
    let s := { coldOf Config.repo with phase := .exec 1#32 1 1, host := [p] }
    stateOf (step s) = coldOf Config.repo := by decide

/-- V-R5: without `rsp_ready` the response stays. -/
theorem test_response_held_V_R5 :
    let s := { coldOf Config.repo with phase := .resp ⟨5, .ok, false⟩ }
    (stateOf (step s)).phase = .resp ⟨5, .ok, false⟩ ∧ (stateOf (step s)).ports.busy = true := by
  decide

/-! ## The assembler (30_encoding.md R90 to R92) -/

theorem test_assemble_getx :
    assembleLine Config.repo "getx -3 ; three back".toList = some [(0x00000304#32, 0)] := by decide
theorem test_assemble_rdcoef :
    assembleLine Config.repo "RDCOEF DEN, 2".toList = some [(0x00010207#32, 0)] := by decide
theorem test_assemble_compute :
    assembleLine Config.repo "COMPUTE -1".toList = some [(0x00000001#32, 0xFFFFFFFFFFFFFFFF)] := by
  decide
theorem test_assemble_rdlast :
    assembleLine Config.repo "RDLAST".toList = some [(0x00000308#32, 0), (0x00000408#32, 0)] := by
  decide
theorem test_assemble_clrall :
    assembleLine Config.repo "CLRALL".toList = some [(0x00000009#32, 0xF)] := by decide
theorem test_assemble_offset_error : assembleLine Config.repo "GETX -256".toList = none := by decide

/-! ## Witnesses: for every statement with hypotheses, a state and operands that meet them -/

/-- A state that is not the reset state and meets the invariant: after `PUSHX -1` and two refusals. -/
def usedState : State :=
  { withHistories Config.repo ⟨[-1, 0, 0, 0], 1⟩ ⟨[0, 0, 0, 0], 0⟩ with
    status := 0b00011#5, phase := .resp ⟨0, .range, false⟩ }

theorem witness_usedState_inv : usedState.Inv where
  x := ⟨rfl, by decide, by decide⟩
  y := ⟨rfl, by decide, by decide⟩
  last := by decide
  outcode := by decide
  lastovf := by decide
  phase := ⟨by decide, by decide⟩

theorem witness_DecodeOfEncodedCommand :
    (Instr.compute (2 ^ 64 - 1)).wellFormed Config.repo = true := by decide

theorem witness_EncodeOfDecodedWord : decode 0x00010207#32 0 = .ok (.rdcoef .den 2#8) := by decide

theorem witness_DecodeMatchesOpcodeTable :
    (∀ r ∈ opcodeTable, (0x0000000A#32 : CmdWord) &&& r.mask ≠ r.pattern) ∧
    (∃ r ∈ opcodeTable, (0x0000FF05#32 : CmdWord) &&& r.mask = r.pattern) ∧
    decode 0x0000FF04#32 0 = .ok (.getx 255#8) ∧ decode 0x0000FF05#32 0 = .ok (.gety 255#8) ∧
    decode 0x0000FF08#32 0 = .ok (.rdreg 255#8) ∧
    decode 0x0001FF07#32 0 = .ok (.rdcoef .den 255#8) := by decide

theorem witness_ReservedWordIsIllegal :
    10 ≤ ((0x0000000A#32 : CmdWord).extractLsb' 0 4).toNat ∧
    (0x00020007#32 : CmdWord) &&& 0xFFFE00F0#32 ≠ 0#32 ∧
    (0x00010204#32 : CmdWord) &&& 0xFFFF00F0#32 ≠ 0#32 ∧
    (0x00000100#32 : CmdWord) &&& 0xFFFFFFF0#32 ≠ 0#32 := by decide

theorem witness_RefusedCommandChangesOnlyItsStatusBit :
    responseOf (runCommand 0x0000000A#32 0 usedState) = some ⟨0, .illegal, false⟩ ∧
    responseOf (runCommand 0x00000404#32 0 usedState) = some ⟨0, .range, false⟩ := by decide

theorem witness_ErrorCodeByCause :
    ∃ t r, runCommand 0x00000405#32 0 usedState = .next t ∧ t.phase = .resp r ∧ r.err = .range :=
  ⟨_, _, rfl, rfl, by decide⟩

/-- The last legal distance, and the first and the last illegal one. -/
theorem witness_GetxResult :
    (3#8 : Index).toNat < usedState.cfg.n ∧ usedState.cfg.n ≤ (4#8 : Index).toNat ∧
    usedState.cfg.n ≤ (255#8 : Index).toNat := by decide

theorem witness_GetyResult :
    (0#8 : Index).toNat < (coldOf n1Cfg).cfg.n ∧ (coldOf n1Cfg).cfg.n ≤ (1#8 : Index).toNat := by
  decide

theorem witness_RdcoefResult :
    (3#8 : Index).toNat < usedState.cfg.n ∧ usedState.cfg.n ≤ (4#8 : Index).toNat ∧
    (1 ≤ (1#8 : Index).toNat ∧ (1#8 : Index).toNat < usedState.cfg.n) ∧
    (0#8 : Index).toNat = 0 := by decide

theorem witness_RdregResult :
    usedState.Inv ∧ 8 ≤ (8#8 : Index).toNat ∧
    responseOf (exec (.rdreg 7#8) usedState) = some ⟨0, .ok, false⟩ ∧
    responseOf (exec (.rdreg 8#8) usedState) = some ⟨0, .range, false⟩ :=
  ⟨witness_usedState_inv, by decide, by decide, by decide⟩

theorem witness_ClrstatResult :
    responseOf (exec (.clrstat 2) usedState) = some ⟨3, .ok, false⟩ := by decide

theorem witness_CommandsWriteByAccessMatrix :
    Instr.mnemonic (.getx 0#8) ∉ [.compute, .pushx, .clear] ∧
    Instr.mnemonic (.pushx 0) ∉ [.compute, .pushy, .clear] ∧
    Instr.mnemonic .clear ∉ [.compute, .clrstat] ∧
    (∃ t r, exec .clear usedState = .next t ∧ t.phase = .resp r ∧ r.err = .ok) :=
  ⟨by decide, by decide, by decide, _, _, rfl, rfl, rfl⟩

theorem witness_CommandsReadByAccessMatrix :
    Instr.mnemonic (.pushx 1) ∉ [.compute, .getx, .rdreg] ∧
    Instr.mnemonic .clear ∉ [.compute, .gety, .rdreg] ∧
    Instr.mnemonic (.compute 1) ≠ .rdreg := by decide

theorem witness_PushLeavesOtherSlots :
    ∃ t, exec (.compute 1) usedState = .next t ∧ (0 : Nat) ≠ usedState.x.wp ∧
      (1 : Nat) ≠ usedState.y.wp := ⟨_, rfl, by decide, by decide⟩

theorem witness_StatusDecidesNoCommand :
    Instr.mnemonic (.rdreg 1#8) ≠ .clrstat ∧ Instr.rdreg 1#8 ≠ .rdreg 0#8 := by decide

theorem witness_HistoryCommandsIgnoreOutputRegisters :
    ∃ t, Instr.mnemonic (.getx 1#8) ∈ [.pushx, .pushy, .getx, .gety, .clear] ∧
      exec (.getx 1#8) usedState = .next t := ⟨_, by decide, rfl⟩

theorem witness_ReadsAreIdempotent :
    ∃ t, Instr.mnemonic (.rdreg 0#8) ∈ [.getx, .gety, .rdcoef, .rdreg] ∧
      exec (.rdreg 0#8) usedState = .next t := ⟨_, by decide, rfl⟩

theorem witness_ReadAfterPushes : (3 : Nat) < 4 ∧ (0 : Nat) < 4 ∧ (0 : Nat) < [5].length ∧
    ¬ (1 : Nat) < ([5] : List Int).length := by decide

theorem witness_PushesEvictOldest :
    usedState.x.WellFormed 4 13 ∧ ([1, 2, 3, 4, 5] : List Int).length = 4 + 1 ∧ 3 < 4 :=
  ⟨witness_usedState_inv.x, by decide, by decide⟩

/-- Both histories of a state at cold start are cold. -/
theorem witness_HistoriesCold : (coldOf idCfg).HistoriesCold := ⟨rfl, rfl⟩

theorem witness_HistoryAfterComputes :
    (coldOf idCfg).HistoriesCold ∧ FilterUndisturbed [.compute 1, .getx 0#8, .compute 0] ∧
    (computeOperands [.compute 1, .getx 0#8, .compute 0]).length = 1 + 1 ∧
    3 < (coldOf idCfg).cfg.n :=
  ⟨witness_HistoriesCold, by unfold FilterUndisturbed; decide, by decide, by decide⟩

theorem witness_ClearRestartsTheFilter : ∃ t, exec .clear usedState = .next t ∧ [1] ≠ ([] : List Nat) :=
  ⟨_, rfl, by decide⟩

theorem witness_AccumulatorWrapsAndLatches :
    usedState.Inv ∧ InSigned 64 5 ∧ ¬ InSigned 64 (2 ^ 63) :=
  ⟨witness_usedState_inv, by decide, by decide⟩

theorem witness_ScaledOutputTruncatesAndFits : InSigned Config.repo.accW (-2 ^ 63) ∧
    (-2 ^ 63 : Int) * Config.repo.snum * Config.repo.sden ≤ 0 ∧
    0 ≤ (1 : Int) * Config.repo.snum * Config.repo.sden := by decide

theorem witness_ComputeResponseCarriesCommittedValue :
    ∃ t, exec (.compute 0x1FFF) usedState = .next t ∧
      t.last.natAbs < 2 ^ (usedState.cfg.accW - 1) := ⟨_, rfl, by decide⟩

theorem witness_AccumulatorFromWrappedProducts :
    [3, 2, 1, 0].Perm (List.range smallCfg.n) ∧ [2, 0, 1].Perm (List.range (smallCfg.n - 1)) := by
  decide

theorem witness_DifferenceEquation : (coldOf smallCfg).HistoriesCold ∧ 2 < [1, 2, 0].length ∧
    FilterUndisturbed [.compute 1, .rdreg 9#8, .compute 2] :=
  ⟨⟨rfl, rfl⟩, by decide, by unfold FilterUndisturbed; decide⟩

theorem witness_ImpulseResponseIsNumerator :
    (coldOf idCfg).HistoriesCold ∧ (∀ v ∈ (coldOf idCfg).cfg.den, v = 0) ∧
    (coldOf idCfg).cfg.snum = 1 ∧ (coldOf idCfg).cfg.sden = 1 ∧ 1 < [1, 0].length ∧
    (∀ m, m < [1, 0].length → sampleOf (coldOf idCfg).cfg [1, 0] m = if m = 0 then 1 else 0) :=
  ⟨⟨rfl, rfl⟩, by decide, rfl, rfl, by decide, by decide⟩

/-- V-S4's runs a, b and c = 2a + 3b, the first two samples; none sets ACCOVF. -/
theorem witness_AccumulatorIsLinear :
    (∀ m, m < [2, 7].length →
      sampleOf smallCfg [2, 7] m = 2 * sampleOf smallCfg [1, 2] m + 3 * sampleOf smallCfg [0, 1] m) ∧
    (∀ l ∈ [[1, 2], [0, 1], [2, 7]], (afterComputes (coldOf smallCfg) l l.length).ArithmeticExact) := by
  refine ⟨by decide, ?_⟩
  unfold State.ArithmeticExact
  decide

theorem witness_StepRunsDecodedCommand :
    (coldOf Config.repo).pins.rst = false ∧ (1 : Nat) ≤ 1 ∧
    decode 0x00000304#32 0 = .ok (.getx 3#8) ∧ decode 0x0000000A#32 0 = .error .reservedOpcode := by
  decide

/-- Pins that offer COMPUTE 1. -/
def offer : Pins := { Pins.quiet with cmdValid := true, cmdWord := 1#32, cmdData := 1 }

theorem witness_AcceptanceLatchesCommand :
    let s := { coldOf Config.repo with host := [offer] }
    s.phase = .idle ∧ s.pins.rst = false ∧ s.pins.cmdValid = true ∧
    Pins.quiet.cmdValid = false ∧ usedState.phase ≠ .idle ∧
    ({ offer with rst := true } : Pins).rst = true := by decide

theorem witness_CommandCommitsAtItsLastEdge :
    let s := { coldOf Config.repo with phase := .exec 1#32 1 3 }
    s.phase = .exec 1#32 1 3 ∧ 1 ≤ 3 ∧ ∀ j, j < 3 → (s.pinsAt j).rst = false := by decide

theorem witness_ResponseHeldUntilReady :
    let s := { usedState with host := [Pins.quiet, { Pins.quiet with rspReady := true }] }
    s.phase = .resp ⟨0, .range, false⟩ ∧
    (∀ j, j < 1 → (s.pinsAt j).rst = false ∧ (s.pinsAt j).rspReady = false) ∧
    (s.pinsAt 1).rst = false ∧ (s.pinsAt 1).rspReady = true := by decide

theorem witness_NoAcceptanceWhileBusy :
    let s := { coldOf Config.repo with host := [offer] }
    let edges := Config.execTime s.execDraws s.pins.cmdWord (s.pins.cmdData % 2 ^ s.cfg.accW)
    s.phase = .idle ∧ s.pins.cmdValid = true ∧ (∀ j, j ≤ edges → (s.pinsAt j).rst = false) ∧
    1 ≤ edges + 1 := by
  refine ⟨rfl, rfl, fun j _ => ?_, by omega⟩
  cases j <;> rfl

theorem witness_PhaseFollowsTheProtocol :
    ∃ t, step { usedState with host := [{ Pins.quiet with rspReady := true }] } = .next t ∧
      t.phase = .idle := ⟨_, rfl, rfl⟩

/-- The codes of 30_encoding.md R85 on the port, one response each. -/
theorem test_rsp_err_codes_R85 :
    [RspErr.ok, .illegal, .range].map (fun e =>
      ({ coldOf Config.repo with phase := .resp ⟨0, e, false⟩ } : State).ports.rspErr) =
    [0#2, 1#2, 2#2] := by decide

theorem witness_OutputPortsShowTheState :
    usedState.phase = .resp ⟨0, .range, false⟩ ∧
    ∀ r, (coldOf Config.repo).phase ≠ .resp r := ⟨rfl, by intro r h; cases h⟩

/-- Pins that assert `rst`. -/
def resetPins : Pins := { Pins.quiet with rst := true }

theorem witness_ResetEdgeSetsEveryElement :
    ({ usedState with host := [resetPins] } : State).pins.rst = true := by decide

theorem witness_InitLastsItsEdges :
    4 ≤ initCfg.tInit ∧ 3 < initCfg.tInit ∧
    (∀ k, k < 4 → ((State.cold initCfg [] 0).pinsAt k).rst = false) := by decide

theorem witness_PortsAfterResetEdge :
    ∃ t, ({ usedState with host := [resetPins] } : State).pins.rst = true ∧
      step { usedState with host := [resetPins] } = .next t := ⟨_, by decide, rfl⟩

theorem witness_StepKeepsInvariant : ∃ t, usedState.Inv ∧ step usedState = .next t :=
  ⟨_, witness_usedState_inv, rfl⟩

/-- A state at the commit edge of a command word. -/
def committing (w : CmdWord) (d : Nat) : State := { usedState with phase := .exec w d 1 }

theorem witness_StateChangesOnlyByNamedCommands :
    ∃ t, step (committing 1#32 1) = .next t ∧ (committing 1#32 1).pins.rst = false ∧
      t.x ≠ (committing 1#32 1).x ∧ t.y ≠ (committing 1#32 1).y ∧
      t.last ≠ (committing 1#32 1).last := ⟨_, rfl, by decide, by decide, by decide, by decide⟩

theorem witness_StickyBitsClearedOnlyByClrstatOrReset :
    ∃ t, step (committing 9#32 2) = .next t ∧ (1 : Nat) < 4 ∧
      (committing 9#32 2).status.getLsbD 1 = true ∧ t.status.getLsbD 1 = false :=
  ⟨_, rfl, by decide, by decide, by decide⟩

theorem witness_StatusBitsSetOnlyByTheirCause :
    ∃ t, step (committing 1#32 5) = .next t ∧
      (committing 1#32 5).status.getLsbD 3 = false ∧ t.status.getLsbD 3 = true :=
  ⟨_, rfl, by decide, by decide⟩

/-- ACCOVF: the state before the sample of V-E3 that wraps, committing COMPUTE 0. -/
theorem witness_StatusBitsSetOnlyByTheirCause_accovf :
    let s := { withHistories Config.repo ⟨[1, 0, 0, 0], 0⟩
      ⟨[467263, 1401790, -137924356023598210, -278001687865532737], 0⟩ with phase := .exec 1#32 0 1 }
    s.status.getLsbD 2 = false ∧ (stateOf (step s)).status.getLsbD 2 = true := by decide

theorem witness_StatusBitsSetOnlyByTheirCause_errors :
    let s := { committing 0x0000000A#32 0 with status := 0#5 }
    let u := { committing 0x00000404#32 0 with status := 0#5 }
    (stateOf (step s)).status.getLsbD 0 = true ∧ (stateOf (step u)).status.getLsbD 1 = true := by
  decide

/-- The ends of each range, and the first value outside it. -/
theorem witness_AssembledCommandsAreWellFormed :
    assemble Config.repo (.pushx (-1)) = some [.pushx 0xFFFFFFFFFFFFFFFF] ∧
    assemble Config.repo (.compute (-2 ^ 63)) = some [.compute 0x8000000000000000] ∧
    assemble Config.repo (.clrstat (2 ^ 64 - 1)) = some [.clrstat 0xFFFFFFFFFFFFFFFF] ∧
    assemble Config.repo (.pushy (-2 ^ 63 - 1)) = none ∧
    assemble Config.repo (.compute (2 ^ 64)) = none ∧
    assemble Config.repo (.rdcoef .den 0) = some [.rdcoef .den 0#8] ∧
    assemble Config.repo (.rdreg 255) = some [.rdreg 255#8] ∧
    assemble Config.repo (.rdreg 256) = none ∧
    assemble Config.repo (.rdcoef .num (-1)) = none := by decide

theorem witness_AssembledOffsetIsDistance :
    (-255 : Int) ≤ -255 ∧ (-255 : Int) ≤ 0 ∧ (-256 : Int) < -255 ∧ (0 : Int) < 1 ∧
    assemble Config.repo (.getx (-255)) = some [.getx 255#8] ∧
    assemble Config.repo (.getx 0) = some [.getx 0#8] ∧
    assemble Config.repo (.getx 1) = none := by decide

theorem witness_MnemonicsSelectTheirCommands :
    "RdStat".toList.map Char.toUpper = "RDSTAT".toList ∧
    "getx".toList.map Char.toUpper = "GETX".toList ∧
    "rdreg".toList.map Char.toUpper = "RDREG".toList ∧ numberOf "7".toList = some 7 ∧
    "RdCoef".toList.map Char.toUpper = "RDCOEF".toList := by decide

end Sys2Proof.Machine.Tests
end

/-! # State family, part 1: what a command does

The four commands that can answer RANGE share one shape, `State.answer`: one equation for each, and what an answer
reads. -/

namespace Sys2Proof.Machine

/-- How GETX, GETY, RDCOEF and RDREG end: with the value read, or with RANGE where the configuration gives the index no
meaning (60_exceptions.md R171). -/
def State.answer (s : State) (inRange : Bool) (v : Int) : State :=
  if inRange then s.respond v false else s.raise .range

section
variable (s : State) (inRange : Bool) (v : Int)

@[simp] theorem State.answer_true : s.answer true v = s.respond v false := rfl
@[simp] theorem State.answer_false : s.answer false v = s.raise .range := rfl

theorem State.answer_with_x (b : History) :
    ({ s with x := b } : State).answer inRange v = { s.answer inRange v with x := b } := by
  cases inRange <;> rfl

theorem State.answer_with_y (b : History) :
    ({ s with y := b } : State).answer inRange v = { s.answer inRange v with y := b } := by
  cases inRange <;> rfl

theorem State.answer_with_output (last : Int) (outcode : Nat) :
    ({ s with last := last, outcode := outcode } : State).answer inRange v =
      { s.answer inRange v with last := last, outcode := outcode } := by
  cases inRange <;> rfl

/-- STATUS is not read by an answer: the response is the same (10_state.md R37). -/
theorem State.answer_with_status_phase (st : StatusBits) :
    (({ s with status := st } : State).answer inRange v).phase = (s.answer inRange v).phase := by
  cases inRange <;> rfl

/-- Another STATUS and another value read change only STATUS and the response (10_state.md R37). -/
theorem State.answer_with_status (st : StatusBits) (v' : Int) :
    ({ s with status := st } : State).answer inRange v' =
      { s.answer inRange v with
        status := (({ s with status := st } : State).answer inRange v').status
        phase := (({ s with status := st } : State).answer inRange v').phase } := by
  cases inRange <;> rfl

end

section
variable (s : State) (index : Index) (bank : Bank)

theorem exec_getx : exec (.getx index) s =
    .next (s.answer (distanceInRange s.cfg index) (s.x.get s.cfg.n index.toNat)) := by
  simp only [exec, execGetx, State.answer]; split <;> rfl

theorem exec_gety : exec (.gety index) s =
    .next (s.answer (distanceInRange s.cfg index) (s.y.get s.cfg.n index.toNat)) := by
  simp only [exec, execGety, State.answer]; split <;> rfl

theorem exec_rdcoef : exec (.rdcoef bank index) s =
    .next (s.answer (tapInRange s.cfg bank index) (coefficient s.cfg bank index)) := by
  simp only [exec, execRdcoef, State.answer]; split <;> rfl

theorem exec_rdreg : exec (.rdreg index) s =
    .next (s.answer (decide (index.toNat < 8)) ((registerValue s index.toNat).getD 0)) := by
  rcases registerValue_cases s index.toNat with ⟨hk, v, hv⟩ | ⟨hk, hv⟩
  · simp [exec, execRdreg, hv, hk]
  · simp [exec, execRdreg, hv, Nat.not_lt.mpr hk]

end

/-- A command whose distance or index the configuration gives no meaning (60_exceptions.md R171). -/
def IndexOutOfRange (c : Config) : Instr → Prop
  | .getx dist => c.n ≤ dist.toNat
  | .gety dist => c.n ≤ dist.toNat
  | .rdcoef .num index => c.n ≤ index.toNat
  | .rdcoef .den index => index.toNat = 0 ∨ c.n ≤ index.toNat
  | .rdreg index => 8 ≤ index.toNat
  | _ => False

/-- An answer refused with RANGE is one whose index is out of range. -/
theorem State.answer_err_range_iff {s : State} {inRange : Bool} {v : Int} {r : Response}
    (hr : (s.answer inRange v).phase = .resp r) : r.err = .range ↔ inRange = false := by
  cases inRange <;> (cases hr; simp [errCode])

/-- RANGE is answered exactly to a command out of range (60_exceptions.md R171, R173). -/
theorem exec_err_range_iff {i : Instr} {s t : State} {r : Response} (h : exec i s = .next t)
    (hr : t.phase = .resp r) : r.err = .range ↔ IndexOutOfRange s.cfg i := by
  cases i with
  | nop | compute _ | pushx _ | pushy _ | clear | clrstat _ =>
    cases h; cases hr; simp [IndexOutOfRange]
  | getx dist =>
    rw [exec_getx] at h; cases h
    rw [State.answer_err_range_iff hr]
    simp [IndexOutOfRange, distanceInRange]
  | gety dist =>
    rw [exec_gety] at h; cases h
    rw [State.answer_err_range_iff hr]
    simp [IndexOutOfRange, distanceInRange]
  | rdcoef bank index =>
    rw [exec_rdcoef] at h; cases h
    rw [State.answer_err_range_iff hr]
    cases bank
    · simp [IndexOutOfRange, tapInRange]
    · simp [IndexOutOfRange, tapInRange]; omega
  | rdreg index =>
    rw [exec_rdreg] at h; cases h
    rw [State.answer_err_range_iff hr]
    simp [IndexOutOfRange]

end Sys2Proof.Machine

/-! # State family, part 2: the access matrix (10_state.md R37, R38) -/

namespace Sys2Proof.Machine

theorem mnemonic_eq_compute {i : Instr} (h : i.mnemonic = .compute) : ∃ d, i = .compute d := by
  cases i with
  | compute d => exact ⟨d, rfl⟩
  | _ => cases h

/-- Settles O18, case by case over what a command can do (`exec_cases`). -/
theorem commandsWriteByAccessMatrix : Obligations.CommandsWriteByAccessMatrix := by
  unfold Obligations.CommandsWriteByAccessMatrix
  intro i s
  rcases exec_cases i s with ⟨d, rfl, h⟩ | ⟨d, rfl, h⟩ | ⟨d, rfl, h⟩ | ⟨rfl, h⟩ | ⟨d, rfl, h⟩ |
    ⟨_, v, h⟩ | ⟨_, h⟩
  · exact ⟨_, _, h, rfl, rfl, rfl, rfl, by simp [Instr.mnemonic], by simp [Instr.mnemonic],
      fun hi => absurd rfl hi, by simp [Instr.mnemonic]⟩
  · exact ⟨_, _, h, rfl, rfl, rfl, rfl, by simp [Instr.mnemonic], fun _ => rfl,
      fun _ => ⟨rfl, rfl⟩, fun _ _ => rfl⟩
  · exact ⟨_, _, h, rfl, rfl, rfl, rfl, fun _ => rfl, by simp [Instr.mnemonic],
      fun _ => ⟨rfl, rfl⟩, fun _ _ => rfl⟩
  · exact ⟨_, _, h, rfl, rfl, rfl, rfl, by simp [Instr.mnemonic], by simp [Instr.mnemonic],
      fun _ => ⟨rfl, rfl⟩, fun _ _ => rfl⟩
  · exact ⟨_, _, h, rfl, rfl, rfl, rfl, fun _ => rfl, fun _ => rfl,
      fun _ => ⟨rfl, rfl⟩, by simp [Instr.mnemonic]⟩
  · exact ⟨_, _, h, rfl, rfl, rfl, rfl, fun _ => rfl, fun _ => rfl,
      fun _ => ⟨rfl, rfl⟩, fun _ _ => rfl⟩
  · exact ⟨_, _, h, rfl, rfl, rfl, rfl, fun _ => rfl, fun _ => rfl,
      fun _ => ⟨rfl, rfl⟩, fun _ hok => by cases hok⟩

/-- X reaches only COMPUTE, GETX and RDREG (10_state.md R38). -/
theorem exec_ignores_x (i : Instr) (s : State) (hi : i.mnemonic ∉ [.compute, .getx, .rdreg])
    (b : History) : ∃ t t', exec i s = .next t ∧ exec i { s with x := b } = .next t' ∧
      t' = { t with x := t'.x } := by
  cases i with
  | compute _ | getx _ | rdreg _ => simp [Instr.mnemonic] at hi
  | nop | pushx _ | pushy _ | clear | clrstat _ => exact ⟨_, _, rfl, rfl, rfl⟩
  | gety _ => exact ⟨_, _, exec_gety .., exec_gety .., by rw [State.answer_with_x]⟩
  | rdcoef _ _ => exact ⟨_, _, exec_rdcoef .., exec_rdcoef .., by rw [State.answer_with_x]⟩

/-- Y reaches only COMPUTE, GETY and RDREG (10_state.md R38). -/
theorem exec_ignores_y (i : Instr) (s : State) (hi : i.mnemonic ∉ [.compute, .gety, .rdreg])
    (b : History) : ∃ t t', exec i s = .next t ∧ exec i { s with y := b } = .next t' ∧
      t' = { t with y := t'.y } := by
  cases i with
  | compute _ | gety _ | rdreg _ => simp [Instr.mnemonic] at hi
  | nop | pushx _ | pushy _ | clear | clrstat _ => exact ⟨_, _, rfl, rfl, rfl⟩
  | getx _ => exact ⟨_, _, exec_getx .., exec_getx .., by rw [State.answer_with_y]⟩
  | rdcoef _ _ => exact ⟨_, _, exec_rdcoef .., exec_rdcoef .., by rw [State.answer_with_y]⟩

/-- LAST and OUTCODE reach only RDREG (10_state.md R38). -/
theorem exec_ignores_output (i : Instr) (s : State) (hi : i.mnemonic ≠ .rdreg)
    (last : Int) (outcode : Nat) : ∃ t t', exec i s = .next t ∧
      exec i { s with last := last, outcode := outcode } = .next t' ∧
      t' = { t with last := t'.last, outcode := t'.outcode } := by
  cases i with
  | rdreg _ => exact absurd rfl hi
  | nop | compute _ | pushx _ | pushy _ | clear | clrstat _ => exact ⟨_, _, rfl, rfl, rfl⟩
  | getx _ => exact ⟨_, _, exec_getx .., exec_getx .., by rw [State.answer_with_output]⟩
  | gety _ => exact ⟨_, _, exec_gety .., exec_gety .., by rw [State.answer_with_output]⟩
  | rdcoef _ _ =>
    exact ⟨_, _, exec_rdcoef .., exec_rdcoef .., by rw [State.answer_with_output]⟩

/-- Settles O19: one independence lemma for each of X, Y and the pair LAST, OUTCODE. -/
theorem commandsReadByAccessMatrix : Obligations.CommandsReadByAccessMatrix :=
  fun i s => ⟨exec_ignores_x i s, exec_ignores_y i s, exec_ignores_output i s⟩

/-- Only register 0 shows STATUS (42_control.md R153). -/
theorem registerValue_with_status (s : State) (st : StatusBits) (k : Nat) (hk : k ≠ 0) :
    registerValue { s with status := st } k = registerValue s k := by
  match k, hk with
  | 0, h => exact absurd rfl h
  | 1, _ | 2, _ | 3, _ | 4, _ | 5, _ | 6, _ | 7, _ | _ + 8, _ => rfl

/-- Settles O21: every command but RDREG of STATUS and CLRSTAT responds a value STATUS is no part of. -/
theorem statusDecidesNoCommand : Obligations.StatusDecidesNoCommand := by
  unfold Obligations.StatusDecidesNoCommand
  intro i s st
  cases i with
  | nop | compute _ | pushx _ | pushy _ | clear => exact ⟨_, _, rfl, rfl, rfl, fun _ _ => rfl⟩
  | clrstat _ => exact ⟨_, _, rfl, rfl, rfl, fun h _ => absurd rfl h⟩
  | getx _ => exact ⟨_, _, exec_getx .., exec_getx .., State.answer_with_status ..,
      fun _ _ => State.answer_with_status_phase ..⟩
  | gety _ => exact ⟨_, _, exec_gety .., exec_gety .., State.answer_with_status ..,
      fun _ _ => State.answer_with_status_phase ..⟩
  | rdcoef _ _ => exact ⟨_, _, exec_rdcoef .., exec_rdcoef .., State.answer_with_status ..,
      fun _ _ => State.answer_with_status_phase ..⟩
  | rdreg index =>
    refine ⟨_, _, exec_rdreg .., exec_rdreg .., State.answer_with_status .., fun _ hne => ?_⟩
    have hk : index.toNat ≠ 0 := fun h0 => hne (by rw [BitVec.eq_of_toNat_eq (y := 0#8) h0])
    rw [registerValue_with_status s st _ hk]
    exact State.answer_with_status_phase ..

end Sys2Proof.Machine

/-! # State family, part 3: what an edge can do (30_encoding.md R70 to R76) -/

namespace Sys2Proof.Machine

/-- An edge with `rst` = 0 that commits no command, and the phase and the draw count it leaves
(30_encoding.md R73 to R76, 70_reset_and_hazards.md R191). -/
inductive State.Waits (s : State) : Phase → Nat → Prop where
  | countInit (k : Nat) (hp : s.phase = .init k) : Waits s (Phase.initFor (k - 1)) s.execDraws
  | accept (hp : s.phase = .idle) (hv : s.pins.cmdValid = true) :
      Waits s
        (.exec s.pins.cmdWord (portData s.cfg s.pins.cmdData)
          (Config.execTime s.execDraws s.pins.cmdWord (portData s.cfg s.pins.cmdData)))
        (s.execDraws + 1)
  | idle (hp : s.phase = .idle) (hv : s.pins.cmdValid = false) : Waits s .idle s.execDraws
  | countExec (w : CmdWord) (d left : Nat) (hp : s.phase = .exec w d left) (hl : 1 < left) :
      Waits s (.exec w d (left - 1)) s.execDraws
  | handOver (r : Response) (hp : s.phase = .resp r) (hr : s.pins.rspReady = true) :
      Waits s .idle s.execDraws
  | hold (r : Response) (hp : s.phase = .resp r) (hr : s.pins.rspReady = false) :
      Waits s (.resp r) s.execDraws

/-- The coming edge, with `rst` = 0, refuses the word in EXEC as ILLEGAL (30_encoding.md R74, R87). -/
def State.CommitsIllegal (s : State) : Prop :=
  s.pins.rst = false ∧
    ∃ w d left, s.phase = .exec w d left ∧ left ≤ 1 ∧ ∃ e, decode w d = .error e

theorem State.takePins_with_phase {s : State} {p : Phase} (hp : s.phase = p) :
    s.takePins = { s.takePins with phase := p, execDraws := s.execDraws } := by
  subst hp; rfl

/-- An edge with `rst` = 0 waits, or runs the command EXEC holds. -/
theorem phaseEdge_waits_or_runs (s : State) :
    (∃ p n, s.Waits p n ∧
      phaseEdge s.pins s.takePins = .next { s.takePins with phase := p, execDraws := n }) ∨
    (∃ w d left, s.phase = .exec w d left ∧ left ≤ 1 ∧
      phaseEdge s.pins s.takePins = runCommand w d s.takePins) := by
  rcases phaseEdge_cases s.pins s.takePins with ⟨k, hp, he⟩ | ⟨hp, hv, he⟩ | ⟨hp, hv, he⟩ |
    ⟨w, d, left, hp, hl, he⟩ | ⟨w, d, left, hp, hl, he⟩ | ⟨r, hp, hr, he⟩ | ⟨r, hp, hr, he⟩
  · exact .inl ⟨_, _, .countInit k hp, he⟩
  · exact .inl ⟨_, _, .accept hp hv, he⟩
  · exact .inl ⟨_, _, .idle hp hv, he.trans (congrArg _ (State.takePins_with_phase (s := s) hp))⟩
  · exact .inl ⟨_, _, .countExec w d left hp hl, he⟩
  · exact .inr ⟨w, d, left, hp, hl, he⟩
  · exact .inl ⟨_, _, .handOver r hp hr, he⟩
  · exact .inl ⟨_, _, .hold r hp hr, he.trans (congrArg _ (State.takePins_with_phase (s := s) hp))⟩

/-- One edge resets, or waits, or commits a command, or refuses an ILLEGAL word; nothing else. -/
theorem step_cases {s t : State} (h : step s = .next t) :
    (s.pins.rst = true ∧ t = State.cold s.cfg s.host.tail s.execDraws) ∨
    (s.pins.rst = false ∧ ∃ p n, s.Waits p n ∧
      t = { s.takePins with phase := p, execDraws := n }) ∨
    (∃ i, s.commits i ∧ exec i s.takePins = .next t) ∨
    (s.CommitsIllegal ∧ t = s.takePins.raise .illegal) := by
  cases hrst : s.pins.rst with
  | true =>
    rw [step_of_rst s hrst] at h; cases h
    exact .inl ⟨rfl, rfl⟩
  | false =>
    rw [step_of_running s hrst] at h
    rcases phaseEdge_waits_or_runs s with ⟨p, n, hw, he⟩ | ⟨w, d, left, hp, hl, he⟩ <;> rw [he] at h
    · cases h
      exact .inr (.inl ⟨rfl, p, n, hw, rfl⟩)
    · rcases runCommand_cases w d s.takePins with ⟨i, hd, hr⟩ | ⟨e, hd, hr⟩ <;> rw [hr] at h
      · exact .inr (.inr (.inl ⟨i, ⟨hrst, w, d, left, hp, hl, hd⟩, h⟩))
      · cases h
        exact .inr (.inr (.inr ⟨⟨hrst, w, d, left, hp, hl, e, hd⟩, rfl⟩))

/-- `commandsWriteByAccessMatrix` for a given next state. -/
theorem exec_frame {i : Instr} {s t : State} (h : exec i s = .next t) : ∃ r,
    t.phase = .resp r ∧ t.cfg = s.cfg ∧
    (i.mnemonic ∉ [.compute, .pushx, .clear] → t.x = s.x) ∧
    (i.mnemonic ∉ [.compute, .pushy, .clear] → t.y = s.y) ∧
    (i.mnemonic ≠ .compute → t.last = s.last ∧ t.outcode = s.outcode) := by
  obtain ⟨t', r, h', hphase, hcfg, -, -, hx, hy, hlast, -⟩ := commandsWriteByAccessMatrix i s
  rw [h] at h'; cases h'
  exact ⟨r, hphase, hcfg, hx, hy, hlast⟩

/-- Settles O40: a waiting edge changes the phase as `State.Waits` says, and a commit ends in RESP. -/
theorem phaseFollowsTheProtocol : Obligations.PhaseFollowsTheProtocol := by
  unfold Obligations.PhaseFollowsTheProtocol
  intro s t h hrst
  rcases step_cases h with ⟨hr, -⟩ | ⟨-, p, n, hw, rfl⟩ | ⟨i, ⟨-, w, d, left, hp, hl, -⟩, he⟩ |
    ⟨⟨-, w, d, left, hp, hl, -⟩, rfl⟩
  · simp [hrst] at hr
  · cases hw with
    | countInit k hp =>
      rw [hp]
      match k with
      | 0 => exact Nat.zero_le 1
      | 1 => exact Nat.le_refl 1
      | _ + 2 => rfl
    | accept hp hv => rw [hp]; exact ⟨hv, rfl⟩
    | idle hp hv => rw [hp]; exact hv
    | countExec w d left hp hl => rw [hp]; exact ⟨rfl, rfl, by omega⟩
    | handOver r hp hr => rw [hp]; exact hr
    | hold r hp hr => rw [hp]; exact ⟨rfl, hr⟩
  · obtain ⟨r, hphase, -⟩ := exec_frame he
    rw [hp, hphase]; exact hl
  · rw [hp]; exact hl

/-- No edge changes the configuration (10_state.md R24, 70_reset_and_hazards.md R195). -/
theorem step_cfg {s t : State} (h : step s = .next t) : t.cfg = s.cfg := by
  rcases step_cases h with ⟨-, rfl⟩ | ⟨-, p, n, -, rfl⟩ | ⟨i, -, he⟩ | ⟨-, rfl⟩
  · rfl
  · rfl
  · obtain ⟨r, -, hcfg, -⟩ := exec_frame he
    exact hcfg
  · rfl

/-- Settles O48, by induction on the number of edges. -/
theorem configurationNeverChanges : Obligations.ConfigurationNeverChanges := by
  unfold Obligations.ConfigurationNeverChanges
  intro k
  induction k with
  | zero => exact fun _ => rfl
  | succ k ih =>
    intro s
    cases h : step s with
    | next t => rw [runEdges_succ k s t h, ih, step_cfg h]
    | fault r => exact nomatch r
    | refused r => simp [runEdges, h]

/-- An error leaves LASTOVF (60_exceptions.md R172). -/
@[simp] theorem flagLastovf_errStatus (st : StatusBits) (e : CmdError) :
    flagLastovf (errStatus st e) = flagLastovf st := by
  cases e
  · exact flagLastovf_setIll st
  · exact flagLastovf_setRng st

/-- Only COMPUTE writes LASTOVF (10_state.md R28). -/
theorem exec_lastovf {i : Instr} {s t : State} (h : exec i s = .next t) (hi : i.mnemonic ≠ .compute) :
    flagLastovf t.status = flagLastovf s.status := by
  rcases exec_cases i s with ⟨d, rfl, h'⟩ | ⟨d, rfl, h'⟩ | ⟨d, rfl, h'⟩ | ⟨rfl, h'⟩ | ⟨d, rfl, h'⟩ |
    ⟨_, v, h'⟩ | ⟨_, h'⟩ <;> rw [h'] at h <;> cases h
  · exact absurd rfl hi
  · rfl
  · rfl
  · rfl
  · exact flagLastovf_clearSticky ..
  · rfl
  · exact flagLastovf_errStatus ..

/-- Settles O49: an edge that commits nothing leaves the five elements, and a commit obeys the access matrix. -/
theorem stateChangesOnlyByNamedCommands : Obligations.StateChangesOnlyByNamedCommands := by
  unfold Obligations.StateChangesOnlyByNamedCommands
  intro s t h hrst
  rcases step_cases h with ⟨hr, -⟩ | ⟨-, p, n, -, rfl⟩ | ⟨i, hc, he⟩ | ⟨-, rfl⟩
  · simp [hrst] at hr
  · simp
  · obtain ⟨r, -, -, hx, hy, hlast⟩ := exec_frame he
    have hflag := exec_lastovf he
    refine ⟨fun hne => ⟨i, hc, ?_⟩, fun hne => ⟨i, hc, ?_⟩, fun hne => ?_⟩
    · exact not_imp_comm.mp hx hne
    · exact not_imp_comm.mp hy hne
    · have hi : i.mnemonic = .compute := by
        by_contra hi
        obtain ⟨hl, ho⟩ := hlast hi
        rcases hne with hne | hne | hne
        · exact hne hl
        · exact hne ho
        · exact hne (hflag hi)
      obtain ⟨d, rfl⟩ := mnemonic_eq_compute hi
      exact ⟨d, hc⟩
  · simp

end Sys2Proof.Machine

/-! # State family, part 4: the STATUS bits (10_state.md R27, R28, R37) -/

namespace Sys2Proof.Machine

/-! Bit `k` of STATUS after each operation that writes it. -/

section
variable (st : StatusBits) (wrapped ovf : Bool) (m : BitVec 4) (k : Nat)

theorem setIll_getLsbD (hk : k < 5) :
    (setIll st).getLsbD k = (st.getLsbD k || decide (k = 0)) := by
  revert st; interval_cases k <;> decide

theorem setRng_getLsbD (hk : k < 5) :
    (setRng st).getLsbD k = (st.getLsbD k || decide (k = 1)) := by
  revert st; interval_cases k <;> decide

theorem clearSticky_getLsbD (hk : k < 4) :
    (clearSticky st m).getLsbD k = (st.getLsbD k && !m.getLsbD k) := by
  interval_cases k
  · exact flagIll_clearSticky st m
  · exact flagRng_clearSticky st m
  · exact flagAccovf_clearSticky st m
  · exact flagOutovf_clearSticky st m

/-- COMPUTE clears no sticky bit. -/
theorem computeStatus_keeps (hk : k < 4) (h : st.getLsbD k = true) :
    (computeStatus st wrapped ovf).getLsbD k = true := by
  interval_cases k
  · exact (flagIll_computeStatus ..).trans h
  · exact (flagRng_computeStatus ..).trans h
  · exact (flagAccovf_computeStatus ..).trans (by simp [flagAccovf, h])
  · exact (flagOutovf_computeStatus ..).trans (by simp [flagOutovf, h])

/-- COMPUTE sets ACCOVF only for a sum that wraps, OUTOVF and LASTOVF only for an output overflow. -/
theorem computeStatus_sets (h0 : st.getLsbD k = false)
    (h1 : (computeStatus st wrapped ovf).getLsbD k = true) :
    k = 2 ∧ wrapped = true ∨ 3 ≤ k ∧ ovf = true := by
  have hk : k < 5 := BitVec.lt_of_getLsbD h1
  have hor (b : Bool) (hb : (st.getLsbD k || b) = true) : b = true := by rwa [h0] at hb
  have hno : ¬ st.getLsbD k = true := Bool.eq_false_iff.mp h0
  interval_cases k
  · exact absurd ((flagIll_computeStatus ..).symm.trans h1) hno
  · exact absurd ((flagRng_computeStatus ..).symm.trans h1) hno
  · exact .inl ⟨rfl, hor _ ((flagAccovf_computeStatus ..).symm.trans h1)⟩
  · exact .inr ⟨le_refl 3, hor _ ((flagOutovf_computeStatus ..).symm.trans h1)⟩
  · exact .inr ⟨by omega, (flagLastovf_computeStatus ..).symm.trans h1⟩

end

/-- A command that clears a sticky bit is a CLRSTAT that names it (10_state.md R27). -/
theorem exec_clears_bit {i : Instr} {s t : State} {k : Nat} (h : exec i s = .next t) (hk : k < 4)
    (hs : s.status.getLsbD k = true) (ht : t.status.getLsbD k = false) :
    ∃ d, i = .clrstat d ∧ d.testBit k = true := by
  rcases exec_cases i s with ⟨d, rfl, h'⟩ | ⟨d, rfl, h'⟩ | ⟨d, rfl, h'⟩ | ⟨rfl, h'⟩ | ⟨d, rfl, h'⟩ |
    ⟨_, v, h'⟩ | ⟨_, h'⟩ <;> rw [h'] at h <;> cases h
  · exact absurd (computeStatus_keeps _ _ _ k hk hs) (Bool.eq_false_iff.mp ht)
  · simp [hs] at ht
  · simp [hs] at ht
  · simp [hs] at ht
  · have hbit := (clearSticky_getLsbD _ _ k hk).symm.trans ht
    rw [hs, clearMask_getLsbD d k hk] at hbit
    exact ⟨d, rfl, by simpa using hbit⟩
  · simp [hs] at ht
  · simp [errStatus, setRng_getLsbD _ k (by omega), hs] at ht

/-- A command that sets a STATUS bit sets RNG and is out of range, or is a COMPUTE that overflows
(10_state.md R27, 60_exceptions.md R171). -/
theorem exec_sets_bit {i : Instr} {s t : State} {k : Nat} (h : exec i s = .next t)
    (hs : s.status.getLsbD k = false) (ht : t.status.getLsbD k = true) :
    (k = 1 ∧ t.phase = .resp ⟨0, .range, false⟩ ∧ IndexOutOfRange s.cfg i) ∨
    (∃ d, i = .compute d ∧
      (k = 2 ∧ ¬ InSigned s.cfg.accW (tapSum s.cfg t.x s.y) ∨
        3 ≤ k ∧ (2 : Int) ^ s.cfg.outW ≤ t.last)) := by
  have hexec := h
  rcases exec_cases i s with ⟨d, rfl, h'⟩ | ⟨d, rfl, h'⟩ | ⟨d, rfl, h'⟩ | ⟨rfl, h'⟩ | ⟨d, rfl, h'⟩ |
    ⟨_, v, h'⟩ | ⟨_, h'⟩ <;> rw [h'] at h <;> cases h
  · refine .inr ⟨d, rfl, ?_⟩
    rcases computeStatus_sets _ _ _ k hs ht with ⟨hk, hw⟩ | ⟨hk, ho⟩
    · exact .inl ⟨hk, (accWrapped_iff _ _).mp hw⟩
    · exact .inr ⟨hk, of_decide_eq_true ho⟩
  · simp [hs] at ht
  · simp [hs] at ht
  · simp [hs] at ht
  · simp [clearSticky, hs] at ht
  · simp [hs] at ht
  · refine .inl ⟨?_, rfl, (exec_err_range_iff hexec rfl).mp rfl⟩
    simpa [errStatus, setRng_getLsbD _ k (BitVec.lt_of_getLsbD ht), hs] using ht

/-- Settles O50: a waiting edge keeps STATUS, an ILLEGAL word sets a bit, and of the commands only CLRSTAT clears one
(`exec_clears_bit`). -/
theorem stickyBitsClearedOnlyByClrstatOrReset : Obligations.StickyBitsClearedOnlyByClrstatOrReset := by
  unfold Obligations.StickyBitsClearedOnlyByClrstatOrReset
  intro s t k h hk hs ht
  rcases step_cases h with ⟨hr, -⟩ | ⟨-, p, n, -, rfl⟩ | ⟨i, hc, he⟩ | ⟨-, rfl⟩
  · exact .inl hr
  · simp [hs] at ht
  · obtain ⟨d, rfl, hd⟩ := exec_clears_bit he hk hs ht
    exact .inr ⟨d, hc, hd⟩
  · simp [errStatus, setIll_getLsbD _ k (by omega), hs] at ht

/-- Settles O51: a waiting edge sets no bit, an ILLEGAL word sets ILL, a command what `exec_sets_bit` says. -/
theorem statusBitsSetOnlyByTheirCause : Obligations.StatusBitsSetOnlyByTheirCause := by
  unfold Obligations.StatusBitsSetOnlyByTheirCause
  intro s t k h hs ht
  rcases step_cases h with ⟨-, rfl⟩ | ⟨-, p, n, -, rfl⟩ | ⟨i, hc, he⟩ | ⟨hc, rfl⟩
  · simp at ht
  · simp [hs] at ht
  · obtain ⟨hrst, w, d, left, hp, hl, hd⟩ := hc
    refine ⟨w, d, left, hp, hl, hrst, ?_⟩
    rcases exec_sets_bit he hs ht with ⟨rfl, hphase, hout⟩ | ⟨x, rfl, hbit⟩
    · exact ⟨by omega, fun _ => ⟨hphase, i, hd, hout⟩, by omega, by omega, by omega⟩
    · rcases hbit with ⟨rfl, hsum⟩ | ⟨hk, hq⟩
      · exact ⟨by omega, by omega, fun _ => ⟨x, hd⟩, fun _ => hsum, by omega⟩
      · exact ⟨by omega, by omega, fun _ => ⟨x, hd⟩, by omega, fun _ => hq⟩
  · obtain ⟨hrst, w, d, left, hp, hl, e, hd⟩ := hc
    have hk : k = 0 := by
      simpa [errStatus, setIll_getLsbD _ k (BitVec.lt_of_getLsbD ht), hs] using ht
    subst hk
    exact ⟨w, d, left, hp, hl, hrst, fun _ => ⟨e, hd⟩, by omega, by omega, by omega, by omega⟩

end Sys2Proof.Machine

/-! # State family, part 5: the invariant (10_state.md R20 to R36) -/

namespace Sys2Proof.Machine

/-- The scaled output of an accumulator in range fits 2·ACC_W bits (41_engine.md R127). -/
theorem scaledOutput_inSigned (c : Config) (acc : Int) (h : InSigned c.accW acc) :
    InSigned (2 * c.accW) (scaledOutput c acc) := by
  have hw := c.accW_bounds
  obtain ⟨ha1, ha2⟩ := h
  obtain ⟨hs1, hs2⟩ := c.snum_inSigned
  have hprod : (acc * c.snum).natAbs ≤ 2 ^ (c.accW - 1) * 2 ^ (c.accW - 1) := by
    rw [Int.natAbs_mul]
    exact Nat.mul_le_mul (by zify; exact abs_le.mpr ⟨ha1, ha2.le⟩)
      (by zify; exact abs_le.mpr ⟨hs1, hs2.le⟩)
  have hq : (scaledOutput c acc).natAbs ≤ (acc * c.snum).natAbs := by
    rw [scaledOutput, tdiv_natAbs]; exact Nat.div_le_self _ _
  have hpow : 2 ^ (c.accW - 1) * 2 ^ (c.accW - 1) < 2 ^ (2 * c.accW - 1) := by
    rw [← pow_add]; exact Nat.pow_lt_pow_right (by norm_num) (by omega)
  have hlt : |scaledOutput c acc| < 2 ^ (2 * c.accW - 1) := by
    zify at hprod hq hpow; omega
  exact ⟨(abs_lt.mp hlt).1.le, (abs_lt.mp hlt).2⟩

/-- The registers' part of the invariant does not depend on the phase or on the model's own fields. -/
theorem State.Inv.with_phase {s : State} (h : s.Inv) {p : Phase} (hp : p.WellFormed s.cfg)
    (host : List Pins) (n : Nat) :
    ({ s with phase := p, host := host, execDraws := n } : State).Inv :=
  { h with phase := hp }

theorem State.Inv.with_x {s : State} (h : s.Inv) {b : History} (hb : b.WellFormed s.cfg.n s.cfg.inW) :
    ({ s with x := b } : State).Inv :=
  { h with x := hb }

theorem State.Inv.with_y {s : State} (h : s.Inv) {b : History} (hb : b.WellFormed s.cfg.n s.cfg.accW) :
    ({ s with y := b } : State).Inv :=
  { h with y := hb }

theorem State.Inv.with_status {s : State} (h : s.Inv) {st : StatusBits}
    (hst : flagLastovf st = flagLastovf s.status) : ({ s with status := st } : State).Inv :=
  { h with lastovf := hst.trans h.lastovf }

/-- A response of the low ACC_W bits of a value is well formed (30_encoding.md R85). -/
theorem Response.wellFormed_ok (c : Config) (v : Int) (ovf : Bool) :
    Response.WellFormed c ⟨lowBits c.accW v, .ok, ovf⟩ where
  data := lowBits_lt c.accW v
  refused := fun h => absurd rfl h

theorem State.Inv.respond {s : State} (h : s.Inv) (v : Int) (ovf : Bool) : (s.respond v ovf).Inv :=
  h.with_phase (p := .resp _) (Response.wellFormed_ok s.cfg v ovf) s.host s.execDraws

theorem State.Inv.raise {s : State} (h : s.Inv) (e : CmdError) : (s.raise e).Inv :=
  (h.with_status (flagLastovf_errStatus s.status e)).with_phase (p := .resp ⟨0, errCode e, false⟩)
    ⟨Nat.two_pow_pos _, fun _ => ⟨rfl, rfl⟩⟩ s.host s.execDraws

/-- COMPUTE writes Y, LAST, OUTCODE and LASTOVF together, so that the invariant holds again
(41_engine.md R125 to R130). -/
theorem State.Inv.commitSum {s : State} (h : s.Inv) (sum : Int) : (s.commitSum sum).Inv := by
  have hacc := wrapTo_inSigned s.cfg.accW (by have := s.cfg.accW_bounds; omega) sum
  exact {
    x := h.x
    y := History.push_wellFormed _ _ _ _ h.y hacc
    last := scaledOutput_inSigned s.cfg _ hacc
    outcode := rfl
    lastovf := flagLastovf_computeStatus ..
    phase := Response.wellFormed_ok .. }

/-- Every command keeps the invariant (10_state.md R23). -/
theorem exec_inv {i : Instr} {s t : State} (hs : s.Inv) (h : exec i s = .next t) : t.Inv := by
  have hx (d : Nat) : (s.x.push s.cfg.n (rawSample s.cfg d)).WellFormed s.cfg.n s.cfg.inW :=
    History.push_wellFormed _ _ _ _ hs.x
      (wrapTo_inSigned _ (by have := s.cfg.inW_bounds; omega) _)
  have hy (d : Nat) : (s.y.push s.cfg.n (pushValue s.cfg d)).WellFormed s.cfg.n s.cfg.accW :=
    History.push_wellFormed _ _ _ _ hs.y
      (wrapTo_inSigned _ (by have := s.cfg.accW_bounds; omega) _)
  rcases exec_cases i s with ⟨d, -, h'⟩ | ⟨d, -, h'⟩ | ⟨d, -, h'⟩ | ⟨-, h'⟩ | ⟨d, -, h'⟩ |
    ⟨-, v, h'⟩ | ⟨-, h'⟩ <;> rw [h'] at h <;> cases h
  · exact (hs.with_x (hx d)).commitSum _
  · exact (hs.with_x (hx d)).respond _ _
  · exact (hs.with_y (hy d)).respond _ _
  · exact ((hs.with_x (History.cold_wellFormed _ _ s.cfg.n_pos)).with_y
      (History.cold_wellFormed _ _ s.cfg.n_pos)).respond _ _
  · exact (hs.with_status (flagLastovf_clearSticky ..)).respond _ _
  · exact hs.respond v false
  · exact hs.raise .range

/-- INIT with as many edges to go as T_INIT allows is a phase the interface can be in (00_scope.md R12). -/
theorem Phase.initFor_wellFormed (c : Config) (k : Nat) (hk : k ≤ c.tInit) :
    (Phase.initFor k).WellFormed c := by
  cases k with
  | zero => trivial
  | succ k => exact ⟨by omega, hk⟩

/-- A waiting edge leaves a phase the interface can be in (10_state.md R34). -/
theorem State.Waits.wellFormed {s : State} {p : Phase} {n : Nat} (hw : s.Waits p n)
    (hs : s.phase.WellFormed s.cfg) : p.WellFormed s.cfg := by
  cases hw with
  | countInit k hp =>
    rw [hp] at hs
    obtain ⟨-, hk⟩ := hs
    exact Phase.initFor_wellFormed _ _ (by omega)
  | accept => exact ⟨Nat.mod_lt _ (Nat.two_pow_pos _), Nat.le_add_left 1 _⟩
  | idle | handOver => trivial
  | countExec w d left hp hl =>
    rw [hp] at hs
    obtain ⟨hd, -⟩ := hs
    exact ⟨hd, by omega⟩
  | hold r hp => rwa [hp] at hs

/-- The reset state of a configuration meets the invariant (10_state.md R36). -/
theorem State.cold_inv (c : Config) (host : List Pins) (n : Nat) : (State.cold c host n).Inv where
  x := History.cold_wellFormed _ _ c.n_pos
  y := History.cold_wellFormed _ _ c.n_pos
  last := ⟨by simp, by simp⟩
  outcode := by simp [lowBits]
  lastovf := by
    have h : ¬ (2 : Int) ^ c.outW ≤ 0 := not_le.mpr (two_pow_pos_int c.outW)
    exact (show flagLastovf 0#5 = false by decide).trans (decide_eq_false h).symm
  phase := Phase.initFor_wellFormed c c.tInit le_rfl

/-- Settles O46, by `State.cold_inv`. -/
theorem resetMeetsInvariant : Obligations.ResetMeetsInvariant :=
  ⟨State.cold_inv, State.cold_inv _ _ _⟩

/-- Settles O45: a reset edge, a waiting edge, a command and an ILLEGAL word each keep the invariant. -/
theorem stepKeepsInvariant : Obligations.StepKeepsInvariant := by
  unfold Obligations.StepKeepsInvariant
  intro s t hs h
  have hpins : s.takePins.Inv := hs.with_phase hs.phase s.host.tail s.execDraws
  rcases step_cases h with ⟨-, rfl⟩ | ⟨-, p, n, hw, rfl⟩ | ⟨i, -, he⟩ | ⟨-, rfl⟩
  · exact State.cold_inv _ _ _
  · exact hs.with_phase (hw.wellFormed hs.phase) s.host.tail n
  · exact exec_inv hpins he
  · exact hpins.raise .illegal

end Sys2Proof.Machine

/-! # Memory family, part 1: the slots a push leaves and what a read after pushes gives (20_memory.md R52 to R54) -/

namespace Sys2Proof.Machine

/-- A push writes no slot but the one at the cursor (20_memory.md R52). -/
theorem History.push_getElem?_ne (n : Nat) (b : History) (v : Int) {j : Nat} (hj : j ≠ b.wp) :
    (b.push n v).slots[j]? = b.slots[j]? := by
  rw [History.push_slots, List.getElem?_set_ne hj.symm]

/-- Settles O20: of the commands that `exec_cases` lists besides CLEAR, COMPUTE and the two pushes write a buffer, each by
one push, and the others leave both buffers. -/
theorem pushLeavesOtherSlots : Obligations.PushLeavesOtherSlots := by
  unfold Obligations.PushLeavesOtherSlots
  intro i s t h hclear
  rcases exec_cases i s with ⟨d, -, he⟩ | ⟨d, -, he⟩ | ⟨d, -, he⟩ | ⟨hi, -⟩ | ⟨d, -, he⟩ |
    ⟨-, v, he⟩ | ⟨-, he⟩
  case inr.inr.inr.inl => exact absurd hi hclear
  all_goals rw [he] at h; cases h
  · exact ⟨fun _ hj => History.push_getElem?_ne _ _ _ hj,
      fun _ hj => History.push_getElem?_ne _ _ _ hj⟩
  · exact ⟨fun _ hj => History.push_getElem?_ne _ _ _ hj, fun _ _ => rfl⟩
  · exact ⟨fun _ _ => rfl, fun _ hj => History.push_getElem?_ne _ _ _ hj⟩
  · exact ⟨fun _ _ => rfl, fun _ _ => rfl⟩
  · exact ⟨fun _ _ => rfl, fun _ _ => rfl⟩
  · exact ⟨fun _ _ => rfl, fun _ _ => rfl⟩

section
variable {n : Nat} {b : History}

/-- A push keeps the cursor below N (10_state.md R23, 20_memory.md R52). -/
theorem History.push_wp_lt (hwp : b.wp < n) (v : Int) : (b.push n v).wp < n := by
  rw [History.push_wp]; exact Nat.mod_lt _ (by omega)

/-- Beyond the pushes a read finds what was there before them, as many distances nearer (20_memory.md R54). -/
theorem History.get_pushAll_add (vs : List Int) (k : Nat) (hwp : b.wp < n) (hd : vs.length + k < n) :
    (b.pushAll n vs).get n (vs.length + k) = b.get n k := by
  induction vs generalizing b k with
  | nil => simp [History.pushAll]
  | cons v rest ih =>
    rw [List.length_cons] at hd ⊢
    calc ((b.push n v).pushAll n rest).get n (rest.length + 1 + k)
        = ((b.push n v).pushAll n rest).get n (rest.length + (k + 1)) := by congr 1; omega
      _ = (b.push n v).get n (k + 1) := ih (k + 1) (History.push_wp_lt hwp v) (by omega)
      _ = b.get n k := History.get_push_succ n b v k hwp (by omega)

/-- Within the pushes a read finds the push D before the last (20_memory.md R54). -/
theorem History.get_pushAll_of_lt (vs : List Int) (dist : Nat) (hlen : b.slots.length = n)
    (hwp : b.wp < n) (hd : dist < n) (hv : dist < vs.length) :
    (b.pushAll n vs).get n dist = vs.getD (vs.length - 1 - dist) 0 := by
  induction vs generalizing b with
  | nil => simp at hv
  | cons v rest ih =>
    have hwp' := History.push_wp_lt hwp v
    rw [List.length_cons] at hv ⊢
    rcases Nat.lt_succ_iff_lt_or_eq.mp hv with hlt | rfl
    · have hidx : rest.length + 1 - 1 - dist = (rest.length - 1 - dist) + 1 := by omega
      rw [hidx, List.getD_cons_succ]
      exact ih (by simpa using hlen) hwp' hlt
    · have hidx : rest.length + 1 - 1 - rest.length = 0 := by omega
      rw [hidx, List.getD_cons_zero]
      exact (History.get_pushAll_add rest 0 hwp' hd).trans (History.get_push_zero n b v hlen hwp)

end

/-- Every read of a buffer of zeros gives 0, wherever its cursor (20_memory.md R54). -/
theorem History.get_replicate_zero (n wp dist : Nat) :
    History.get n ⟨List.replicate n 0, wp⟩ dist = 0 := by
  rw [History.get, List.getD_eq_getElem?_getD, List.getElem?_getD_replicate_default_eq]

/-- Settles O24: a distance reads within the pushes, or beyond them into the zeros. -/
theorem readAfterPushes : Obligations.ReadAfterPushes := by
  unfold Obligations.ReadAfterPushes
  intro n wp dist vs hwp hd
  split
  case isTrue hlt => exact History.get_pushAll_of_lt vs dist List.length_replicate hwp hd hlt
  case isFalse hge =>
    obtain ⟨k, rfl⟩ := Nat.exists_eq_add_of_le (Nat.not_lt.mp hge)
    exact (History.get_pushAll_add vs k hwp hd).trans (History.get_replicate_zero n wp k)

end Sys2Proof.Machine

/-! # Memory family, part 2: reading commands repeated (20_memory.md R59) -/

namespace Sys2Proof.Machine

section
variable (s : State) (inRange : Bool) (v : Int)

@[simp] theorem State.answer_cfg : (s.answer inRange v).cfg = s.cfg := by cases inRange <;> rfl
@[simp] theorem State.answer_x : (s.answer inRange v).x = s.x := by cases inRange <;> rfl
@[simp] theorem State.answer_y : (s.answer inRange v).y = s.y := by cases inRange <;> rfl

/-- Setting a STATUS bit that an error has set already changes nothing (60_exceptions.md R172). -/
theorem errStatus_errStatus (st : StatusBits) (e : CmdError) :
    errStatus (errStatus st e) e = errStatus st e := by
  cases e
  · simp [errStatus, setIll, BitVec.or_assoc]
  · simp [errStatus, setRng, BitVec.or_assoc]

/-- The same error raised twice is raised once (60_exceptions.md R172). -/
theorem State.raise_raise (e : CmdError) : (s.raise e).raise e = s.raise e := by
  simp only [State.raise, errStatus_errStatus]

/-- The same response given twice is given once (00_scope.md R15). -/
theorem State.respond_respond (ovf : Bool) : (s.respond v ovf).respond v ovf = s.respond v ovf := rfl

/-- The same answer given twice is given once, in range or not. -/
@[simp] theorem State.answer_answer : (s.answer inRange v).answer inRange v = s.answer inRange v := by
  cases inRange
  · exact s.raise_raise .range
  · exact s.respond_respond v false

end

/-- No register shows the response, so a command that only responds changes none (42_control.md R153). -/
theorem registerValue_respond (s : State) (v : Int) (ovf : Bool) (k : Nat) :
    registerValue (s.respond v ovf) k = registerValue s k := rfl

/-- Settles O23: the answer leaves what the command reads, so the repetition answers the same (`State.answer_answer`); an
RDREG refused with RANGE sets STATUS, which it then does not read. -/
theorem readsAreIdempotent : Obligations.ReadsAreIdempotent := by
  unfold Obligations.ReadsAreIdempotent
  intro i s t hi h
  cases i with
  | nop | compute _ | pushx _ | pushy _ | clear | clrstat _ => simp [Instr.mnemonic] at hi
  | getx dist => rw [exec_getx] at h; cases h; simp [exec_getx]
  | gety dist => rw [exec_gety] at h; cases h; simp [exec_gety]
  | rdcoef bank index => rw [exec_rdcoef] at h; cases h; simp [exec_rdcoef]
  | rdreg index =>
    rw [exec_rdreg] at h; cases h
    rw [exec_rdreg]
    cases hk : decide (index.toNat < 8) with
    | true => simp only [State.answer_true, registerValue_respond, State.respond_respond]
    | false => simp only [State.answer_false, State.raise_raise]

end Sys2Proof.Machine

/-! # Memory family, part 3: the distance an offset assembles to (20_memory.md R51, 30_encoding.md R90) -/

namespace Sys2Proof.Machine

/-- An index of 0 to 255 fits the field D, which then holds it (30_encoding.md R90, R92). -/
theorem asmIndex_of_inRange {i : Int} (h0 : 0 ≤ i) (h255 : i ≤ 255) :
    ∃ index : Index, (index.toNat : Int) = i ∧ asmIndex i = some index := by
  refine ⟨BitVec.ofInt 8 i, ?_, if_pos ⟨h0, h255⟩⟩
  rw [BitVec.toNat_ofInt]; omega

/-- Any other index is an assembly error (30_encoding.md R90). -/
theorem asmIndex_of_outOfRange {i : Int} (h : i < 0 ∨ 255 < i) : asmIndex i = none :=
  if_neg (by omega)

/-- Settles O53: GETX and GETY assemble their offset to the index -off, which is in 0 to 255 for exactly the offsets 0 to
-255. -/
theorem assembledOffsetIsDistance : Obligations.AssembledOffsetIsDistance := by
  unfold Obligations.AssembledOffsetIsDistance
  intro c off
  constructor
  · intro hlo hhi
    obtain ⟨dist, hdist, hasm⟩ := asmIndex_of_inRange (i := -off) (by omega) (by omega)
    exact ⟨dist, hdist, by simp [assemble, asmOffset, hasm], by simp [assemble, asmOffset, hasm]⟩
  · intro hout
    have hasm : asmIndex (-off) = none := asmIndex_of_outOfRange (by omega)
    exact ⟨by simp [assemble, asmOffset, hasm], by simp [assemble, asmOffset, hasm]⟩

end Sys2Proof.Machine

/-! # Encoding family, part 1: the opcode table (30_encoding.md R82, R84, R86, R87)

A row selects a word, and a word decodes to the row's mnemonic, for the same two reasons: OP is the mnemonic's opcode and
the bits the opcode does not use are 0. -/

namespace Sys2Proof

/-- OP of each mnemonic (30_encoding.md R79). -/
def opcodeOf : Mnemonic → BitVec 4
  | .nop => 0#4
  | .compute => 1#4
  | .pushx => 2#4
  | .pushy => 3#4
  | .getx => 4#4
  | .gety => 5#4
  | .clear => 6#4
  | .rdcoef => 7#4
  | .rdreg => 8#4
  | .clrstat => 9#4

/-- Every bit that OP does not use is 0 (30_encoding.md R84, R87). -/
def ReservedBitsClear (w : CmdWord) : Prop := w &&& ~~~(0x0000000F#32 ||| usedBits (opField w)) = 0#32

theorem opcodeOf_lt (m : Mnemonic) : (opcodeOf m).toNat < 10 := by cases m <;> decide

/-- A row's pattern is the opcode and its mask OP with the bits the opcode does not use (30_encoding.md R86). -/
theorem opcodeTable_row : ∀ r ∈ opcodeTable,
    r.pattern = (opcodeOf r.mnemonic).setWidth 32 ∧
      r.mask = 0xF#32 ||| ~~~(0x0000000F#32 ||| usedBits (opcodeOf r.mnemonic)) := by
  decide

/-- Every mnemonic has a row. -/
theorem exists_row (m : Mnemonic) : ∃ r ∈ opcodeTable, r.mnemonic = m := by
  cases m <;> decide

/-- No two rows have one opcode. -/
theorem row_unique : ∀ r ∈ opcodeTable, ∀ r' ∈ opcodeTable,
    opcodeOf r.mnemonic = opcodeOf r'.mnemonic → r = r' := by
  decide

theorem row_match_iff {r : OpcodeRow} (hr : r ∈ opcodeTable) (w : CmdWord) :
    w &&& r.mask = r.pattern ↔ opField w = opcodeOf r.mnemonic ∧ ReservedBitsClear w := by
  obtain ⟨hp, hm⟩ := opcodeTable_row r hr
  have hu (op : BitVec 4) : ~~~(0x0000000F#32 ||| usedBits op) &&& 0xF#32 = 0#32 := by
    revert op; decide
  rw [hp, and_mask_iff w _ _ _ hm (hu _)]
  exact and_congr_right fun hop => by rw [ReservedBitsClear, hop]

/-- A selected command has the opcode of its mnemonic (30_encoding.md R79). -/
theorem opField_of_selectCommand {op : BitVec 4} {dist : Index} {bank : Bank} {d : Nat} {i : Instr}
    (h : selectCommand op dist bank d = some i) : op = opcodeOf i.mnemonic := by
  rw [selectCommand_eq_some_iff] at h
  cases i with
  | nop | clear => exact h
  | compute _ | pushx _ | pushy _ | getx _ | gety _ | rdcoef _ _ | rdreg _ | clrstat _ => exact h.1

/-- The opcode of a mnemonic selects a command of it (30_encoding.md R79). -/
theorem exists_selectCommand (m : Mnemonic) (dist : Index) (bank : Bank) (d : Nat) :
    ∃ i, selectCommand (opcodeOf m) dist bank d = some i ∧ i.mnemonic = m := by
  cases m <;> exact ⟨_, rfl, rfl⟩

/-- What a decoded word tells of its fields (30_encoding.md R84). -/
theorem fields_of_decode {w : CmdWord} {d : Nat} {i : Instr} (h : decode w d = .ok i) :
    opField w = opcodeOf i.mnemonic ∧ ReservedBitsClear w := by
  obtain ⟨hs, hz⟩ := (decode_ok_iff w d i).mp h
  exact ⟨opField_of_selectCommand hs, hz⟩

/-- A word decodes to a command of a mnemonic exactly when OP is its opcode and no reserved bit is set
(30_encoding.md R84). -/
theorem decode_mnemonic_iff (w : CmdWord) (d : Nat) (m : Mnemonic) :
    (∃ i, decode w d = .ok i ∧ i.mnemonic = m) ↔ opField w = opcodeOf m ∧ ReservedBitsClear w := by
  constructor
  · rintro ⟨i, hd, rfl⟩
    exact fields_of_decode hd
  · rintro ⟨hop, hz⟩
    obtain ⟨i, hs, hi⟩ := exists_selectCommand m (indexField w) (bankField w) d
    exact ⟨i, (decode_ok_iff w d i).mpr ⟨by rw [hop]; exact hs, hz⟩, hi⟩

/-- The command a decoded word is selected as, read from the command (30_encoding.md R79 to R81). -/
theorem selectCommand_of_decode {w : CmdWord} {d : Nat} {i : Instr} (h : decode w d = .ok i) :
    selectCommand (opField w) (indexField w) (bankField w) d = some i :=
  ((decode_ok_iff w d i).mp h).1

/-- Settles O3: a row matches a word, and a word decodes to the row's mnemonic, for the same opcode and reserved bits
(`row_match_iff`, `decode_mnemonic_iff`). -/
theorem decodeMatchesOpcodeTable : Obligations.DecodeMatchesOpcodeTable := by
  unfold Obligations.DecodeMatchesOpcodeTable
  intro w d
  have hrow (r) (hr : r ∈ opcodeTable) : w &&& r.mask = r.pattern ↔
      ∃ i, decode w d = .ok i ∧ i.mnemonic = r.mnemonic :=
    (row_match_iff hr w).trans (decode_mnemonic_iff w d r.mnemonic).symm
  refine ⟨hrow, fun r hr r' hr' h h' => ?_, fun hnone => ?_, fun dist h => ?_, fun dist h => ?_,
    fun index h => ?_, fun bank index h => ?_⟩
  · obtain ⟨hop, -⟩ := (row_match_iff hr w).mp h
    obtain ⟨hop', -⟩ := (row_match_iff hr' w).mp h'
    exact row_unique r hr r' hr' (hop.symm.trans hop')
  · cases hd : decode w d with
    | error e => exact ⟨e, rfl⟩
    | ok i =>
      obtain ⟨r, hr, hm⟩ := exists_row i.mnemonic
      exact absurd ((hrow r hr).mpr ⟨i, hd, hm.symm⟩) (hnone r hr)
  all_goals
    have hs := (selectCommand_eq_some_iff _ _ _ _ _).mp (selectCommand_of_decode h)
    exact hs.2

end Sys2Proof

namespace Sys2Proof.Machine

/-- Bits outside the fields of a valid OP, as the mask of R82 for each (30_encoding.md R82, R87). -/
theorem reservedMask_eq (op : BitVec 4) :
    (if op.toNat ∈ [4, 5, 8] then 0xFFFF00F0#32
      else if op.toNat = 7 then 0xFFFE00F0#32 else 0xFFFFFFF0#32) =
      ~~~(0x0000000F#32 ||| usedBits op) := by
  revert op; decide

/-- Settles O5: a word that decodes has a valid OP and no reserved bit set (`fields_of_decode`), so a reserved word is
refused. -/
theorem reservedWordIsIllegal : Obligations.ReservedWordIsIllegal := by
  unfold Obligations.ReservedWordIsIllegal
  intro w d s hres
  rcases runCommand_cases w d s with ⟨i, hd, -⟩ | ⟨e, -, hrun⟩
  · obtain ⟨hop, hz⟩ := fields_of_decode hd
    rcases hres with hge | hbits
    · have hlt := opcodeOf_lt i.mnemonic
      rw [← hop, opField] at hlt
      omega
    · rw [reservedMask_eq] at hbits
      exact absurd hz hbits
  · exact hrun

end Sys2Proof.Machine

/-! # Encoding family, part 2: a command has one word (30_encoding.md R82 to R86)

A word with no reserved bit set is its fields put together again, so `decode` reads the word `encodeWord i` as `i`, and no
other word. -/

namespace Sys2Proof

section
variable {w : CmdWord} (h : ReservedBitsClear w)

include h in
/-- A bit that OP does not use is 0 (30_encoding.md R84). -/
theorem getLsbD_of_reserved (k : Nat)
    (hk : (~~~(0x0000000F#32 ||| usedBits (opField w))).getLsbD k = true) : w.getLsbD k = false := by
  have hbit := congrArg (fun v => BitVec.getLsbD v k) h
  simpa only [BitVec.getLsbD_and, hk, Bool.and_true, BitVec.getLsbD_zero] using hbit

/-- Bits 7:4 and 31:17 are reserved whatever OP is (30_encoding.md R78). -/
theorem reserved_outside_fields (op : BitVec 4) : ∀ k < 32, ¬ k < 4 → k < 8 ∨ ¬ k < 17 →
    (~~~(0x0000000F#32 ||| usedBits op)).getLsbD k = true := by
  revert op; decide

include h in
/-- A word with no reserved bit set is its fields put together (30_encoding.md R78). -/
theorem eq_packWord : w = packWord (bankBit (bankField w)) (indexField w) (opField w) := by
  apply BitVec.eq_of_getLsbD_eq
  intro k hk
  have hres := fun hge hout =>
    getLsbD_of_reserved h k (reserved_outside_fields (opField w) k hk hge hout)
  rw [packWord_getLsbD]
  split
  · next hlt => simp [opField, hlt]
  split
  · next hge hlt => exact hres hge (.inl hlt)
  split
  · next hge hlt =>
    have hidx : 8 + (k - 8) = k := by omega
    have hlt' : k - 8 < 8 := by omega
    simp [indexField, hidx, hlt']
  split
  · next hge hlt =>
    obtain rfl : k = 16 := by omega
    rw [bankField]; cases w.getLsbD 16 <;> rfl
  · next hge4 _ _ hge => exact hres hge4 (.inr hge)

include h in
/-- D is 0 where OP has no field (30_encoding.md R82). -/
theorem indexField_eq_zero {op : BitVec 4} (hop : opField w = op) (hu : usedBits op = 0#32) :
    indexField w = 0#8 := by
  apply BitVec.eq_of_getLsbD_eq
  intro k hk
  have hmask : (~~~(0x0000000F#32 ||| 0#32)).getLsbD (8 + k) = true := by revert k; decide
  have hbit := getLsbD_of_reserved h (8 + k) (by rw [hop, hu]; exact hmask)
  simp [indexField, hbit]

include h in
/-- S is 0 where OP is not that of RDCOEF (30_encoding.md R82). -/
theorem bankField_eq_num {op : BitVec 4} (hop : opField w = op) (hne : op ≠ 7#4) :
    bankField w = .num := by
  have hmask : ∀ op : BitVec 4, op ≠ 7#4 →
      (~~~(0x0000000F#32 ||| usedBits op)).getLsbD 16 = true := by decide
  have hbit := getLsbD_of_reserved h 16 (by rw [hop]; exact hmask op hne)
  rw [bankField, hbit]; rfl

end

/-- The word of a command is one its table row selects (30_encoding.md R86). -/
theorem encodeWord_selected (i : Instr) : Laws.TableRow.Statement i := by
  cases i with
  | nop => exact Laws.TableRow.nop
  | compute d => exact Laws.TableRow.compute d
  | pushx d => exact Laws.TableRow.pushx d
  | pushy d => exact Laws.TableRow.pushy d
  | getx dist => exact Laws.TableRow.getx dist
  | gety dist => exact Laws.TableRow.gety dist
  | clear => exact Laws.TableRow.clear
  | rdcoef bank index => exact Laws.TableRow.rdcoef bank index
  | rdreg index => exact Laws.TableRow.rdreg index
  | clrstat d => exact Laws.TableRow.clrstat d

/-- The word of a command has no reserved bit set (30_encoding.md R78, R82). -/
theorem reservedBitsClear_encodeWord (i : Instr) : ReservedBitsClear (encodeWord i) := by
  obtain ⟨r, hr, -, hsel⟩ := encodeWord_selected i
  exact ((row_match_iff hr _).mp (of_decide_eq_true hsel)).2

/-- A command with a data operand has `d` as the operand; the other commands ignore it (30_encoding.md R83). -/
def Instr.OperandIs (d : Nat) : Instr → Prop
  | .compute d' => d' = d
  | .pushx d' => d' = d
  | .pushy d' => d' = d
  | .clrstat d' => d' = d
  | .nop | .getx _ | .gety _ | .clear | .rdcoef _ _ | .rdreg _ => True

theorem Instr.operandIs_encodeData (i : Instr) : i.OperandIs (encodeData i) := by
  cases i with
  | compute _ | pushx _ | pushy _ | clrstat _ => rfl
  | nop | getx _ | gety _ | clear | rdcoef _ _ | rdreg _ => trivial

/-- A command is selected from the fields of its own word (30_encoding.md R79 to R83). -/
theorem selectCommand_encodeWord {d : Nat} {i : Instr} (hd : i.OperandIs d) :
    selectCommand (opField (encodeWord i)) (indexField (encodeWord i)) (bankField (encodeWord i)) d =
      some i := by
  rw [selectCommand_eq_some_iff]
  cases i with
  | nop | clear => simp [encodeWord]
  | compute _ | pushx _ | pushy _ | clrstat _ => exact ⟨by simp [encodeWord], hd⟩
  | getx _ | gety _ | rdreg _ => simp [encodeWord]
  | rdcoef bank _ => cases bank <;> simp [encodeWord, bankBit]

/-- The word a command is selected from, when no reserved bit is set, is the command's (30_encoding.md R82). -/
theorem eq_encodeWord {w : CmdWord} {d : Nat} {i : Instr} (hz : ReservedBitsClear w)
    (hs : selectCommand (opField w) (indexField w) (bankField w) d = some i) :
    w = encodeWord i ∧ i.OperandIs d := by
  have hw := eq_packWord hz
  rw [selectCommand_eq_some_iff] at hs
  cases i with
  | nop | clear =>
    rw [bankField_eq_num hz hs (by decide), indexField_eq_zero hz hs (by decide), hs] at hw
    exact ⟨hw, trivial⟩
  | compute _ | pushx _ | pushy _ | clrstat _ =>
    obtain ⟨hop, hd⟩ := hs
    rw [bankField_eq_num hz hop (by decide), indexField_eq_zero hz hop (by decide), hop] at hw
    exact ⟨hw, hd⟩
  | getx _ | gety _ | rdreg _ =>
    obtain ⟨hop, rfl⟩ := hs
    rw [bankField_eq_num hz hop (by decide), hop] at hw
    exact ⟨hw, trivial⟩
  | rdcoef _ _ =>
    obtain ⟨hop, rfl, rfl⟩ := hs
    rw [hop] at hw
    exact ⟨hw, trivial⟩

/-- The word of a command, and no other, decodes to it (30_encoding.md R82 to R86). -/
theorem decode_ok_iff_encodeWord (w : CmdWord) (d : Nat) (i : Instr) :
    decode w d = .ok i ↔ w = encodeWord i ∧ i.OperandIs d := by
  rw [decode_ok_iff]
  constructor
  · rintro ⟨hs, hz⟩
    exact eq_encodeWord hz hs
  · rintro ⟨rfl, hd⟩
    exact ⟨selectCommand_encodeWord hd, reservedBitsClear_encodeWord i⟩

/-- Decoding inverts encoding (30_encoding.md R82 to R86). -/
theorem decode_encode (i : Instr) : decode (encodeWord i) (encodeData i) = .ok i :=
  (decode_ok_iff_encodeWord _ _ i).mpr ⟨rfl, i.operandIs_encodeData⟩

end Sys2Proof

namespace Sys2Proof.Machine

/-- The data port carries the operand of a well-formed command whole (30_encoding.md R71, R83). -/
theorem portData_encodeData {c : Config} {i : Instr} (h : i.wellFormed c = true) :
    portData c (encodeData i) = encodeData i := by
  apply Nat.mod_eq_of_lt
  cases i with
  | compute _ | pushx _ | pushy _ | clrstat _ => exact of_decide_eq_true h
  | nop | getx _ | gety _ | clear | rdcoef _ _ | rdreg _ => exact Nat.two_pow_pos c.accW

/-- Settles O1: the port carries the operand whole, and `decode_encode`. -/
theorem decodeOfEncodedCommand : Obligations.DecodeOfEncodedCommand := by
  unfold Obligations.DecodeOfEncodedCommand
  intro c i hi
  rw [portData_encodeData hi]
  exact decode_encode i

/-- Settles O2: a word that decodes to a command is the command's word (`decode_ok_iff_encodeWord`). -/
theorem encodeOfDecodedWord : Obligations.EncodeOfDecodedWord := by
  unfold Obligations.EncodeOfDecodedWord
  intro w d i h
  obtain ⟨rfl, -⟩ := (decode_ok_iff_encodeWord w d i).mp h
  exact ⟨rfl, decode_encode i⟩

/-- Settles O4: the six words are the encoder's for their commands; the decoder refuses the two reserved words. -/
theorem specWordsDecode : Obligations.SpecWordsDecode := by
  unfold Obligations.SpecWordsDecode
  intro d
  have henc (w : CmdWord) (i : Instr) (hw : w = encodeWord i) (hd : i.OperandIs d) :
      decode w d = .ok i := (decode_ok_iff_encodeWord w d i).mpr ⟨hw, hd⟩
  exact ⟨henc _ _ (by decide) trivial, henc _ _ (by decide) trivial, henc _ _ (by decide) trivial,
    henc _ _ (by decide) trivial, henc _ _ (by decide) trivial, henc _ _ rfl rfl, rfl, rfl⟩

end Sys2Proof.Machine

/-! # Encoding family, part 3: the response of the command step (30_encoding.md R85, R93; 60_exceptions.md R171, R173) -/

namespace Sys2Proof.Machine

/-- No command that decodes is answered ILLEGAL (60_exceptions.md R171, R173). -/
theorem exec_err_ne_illegal {i : Instr} {s t : State} {r : Response} (h : exec i s = .next t)
    (hr : t.phase = .resp r) : r.err ≠ .illegal := by
  rcases exec_cases i s with ⟨d, -, h'⟩ | ⟨d, -, h'⟩ | ⟨d, -, h'⟩ | ⟨-, h'⟩ | ⟨d, -, h'⟩ |
    ⟨-, v, h'⟩ | ⟨-, h'⟩ <;> (rw [h'] at h; cases h; cases hr; exact RspErr.noConfusion)

/-- Only COMPUTE answers with rsp_ovf (30_encoding.md R85). -/
theorem compute_of_exec_ovf {i : Instr} {s t : State} {r : Response} (h : exec i s = .next t)
    (hr : t.phase = .resp r) (hovf : r.ovf = true) : ∃ d, i = .compute d := by
  rcases exec_cases i s with ⟨d, hi, -⟩ | ⟨d, -, h'⟩ | ⟨d, -, h'⟩ | ⟨-, h'⟩ | ⟨d, -, h'⟩ |
    ⟨-, v, h'⟩ | ⟨-, h'⟩
  · exact ⟨d, hi⟩
  all_goals rw [h'] at h; cases h; cases hr; exact Bool.noConfusion hovf

/-- Settles O7: a word that does not decode is answered ILLEGAL; one that does is answered RANGE exactly when its index is
out of range (`exec_err_range_iff`), never ILLEGAL, and with rsp_ovf only by COMPUTE. -/
theorem errorCodeByCause : Obligations.ErrorCodeByCause := by
  unfold Obligations.ErrorCodeByCause
  intro w d s t r h hr
  rcases runCommand_cases w d s with ⟨i, hd, hrun⟩ | ⟨e, hd, hrun⟩ <;> rw [hrun] at h
  · have hrange := exec_err_range_iff h hr
    refine ⟨⟨fun hill => absurd hill (exec_err_ne_illegal h hr), fun ⟨e, he⟩ => ?_⟩,
      ⟨fun herr => ⟨i, hd, hrange.mp herr⟩, fun ⟨j, hj, hout⟩ => hrange.mpr ?_⟩, fun hovf => ?_⟩
    · rw [hd] at he; cases he
    · rw [hd] at hj; cases hj; exact hout
    · obtain ⟨x, rfl⟩ := compute_of_exec_ovf h hr hovf
      exact ⟨x, hd⟩
  · cases h; cases hr
    refine ⟨⟨fun _ => ⟨e, hd⟩, fun _ => rfl⟩, ⟨fun herr => ?_, fun ⟨j, hj, _⟩ => ?_⟩,
      fun hovf => ?_⟩
    · cases herr
    · rw [hd] at hj; cases hj
    · cases hovf

/-- Every word and operand is answered with one response (30_encoding.md R93). -/
theorem runCommand_total (w : CmdWord) (d : Nat) (s : State) :
    ∃ t r, runCommand w d s = .next t ∧ t.phase = .resp r := by
  rcases runCommand_cases w d s with ⟨i, -, hrun⟩ | ⟨e, -, hrun⟩ <;> rw [hrun]
  · obtain ⟨t, r, h, hr, -⟩ := commandsWriteByAccessMatrix i s
    exact ⟨t, r, h, hr⟩
  · exact ⟨_, _, rfl, rfl⟩

/-- Every edge gives a next state (30_encoding.md R93, 60_exceptions.md R170). -/
theorem step_total (s : State) : ∃ t, step s = .next t := by
  cases hrst : s.pins.rst with
  | true => exact ⟨_, step_of_rst s hrst⟩
  | false =>
    rw [step_of_running s hrst]
    rcases phaseEdge_waits_or_runs s with ⟨p, n, -, he⟩ | ⟨w, d, left, -, -, he⟩ <;> rw [he]
    · exact ⟨_, rfl⟩
    · obtain ⟨t, r, h, -⟩ := runCommand_total w d s.takePins
      exact ⟨t, h⟩

/-- Settles O47: the command step and the edge are total. -/
theorem stepIsTotal : Obligations.StepIsTotal := ⟨runCommand_total, step_total⟩

end Sys2Proof.Machine

/-! # Encoding family, part 4: the edges of one handshake (30_encoding.md R70 to R76)

What the coming edge does in each phase is one equation for a waiting edge (`step_of_waits`) and one for the commit
(`step_commit`); a run of edges follows by induction. -/

namespace Sys2Proof.Machine

section
variable {s : State} (hrst : s.pins.rst = false)

include hrst in
/-- A waiting edge changes the phase and the draw count and takes the pins, and nothing else. -/
theorem step_of_waits {p : Phase} {n : Nat} (hw : s.Waits p n) :
    step s = .next { s.takePins with phase := p, execDraws := n } := by
  rw [step_of_running s hrst]
  cases hw with
  | countInit k hp => simp [phaseEdge, hp]
  | accept hp hv => simp [phaseEdge, hp, hv, State.accept]
  | idle hp hv => simpa [phaseEdge, hp, hv] using State.takePins_with_phase hp
  | countExec w d left hp hl => simp [phaseEdge, hp, Nat.not_le.mpr hl]
  | handOver r hp hr => simp [phaseEdge, hp, hr]
  | hold r hp hr => simpa [phaseEdge, hp, hr] using State.takePins_with_phase hp

include hrst in
/-- The last edge of EXEC runs the command it holds (30_encoding.md R74). -/
theorem step_commit {w : CmdWord} {d left : Nat} (hp : s.phase = .exec w d left) (hl : left ≤ 1) :
    step s = runCommand w d s.takePins := by
  rw [step_of_running s hrst]
  simp [phaseEdge, hp, hl]

end

/-- Settles O35: the last edge of EXEC is `runCommand` (`step_commit`), whose two branches these are. -/
theorem stepRunsDecodedCommand : Obligations.StepRunsDecodedCommand := by
  unfold Obligations.StepRunsDecodedCommand
  intro s w d left hrst hp hl
  rw [step_commit hrst hp hl]
  exact ⟨fun i hd => by simp only [runCommand, hd]; rfl, fun e hd => by simp only [runCommand, hd]; rfl⟩

/-- The command word and operand on the pins reach the state only by an acceptance (30_encoding.md R73). -/
theorem phaseEdge_ignores_command {p q : Pins} {s : State} (hready : p.rspReady = q.rspReady)
    (hvalid : p.cmdValid = q.cmdValid) (hno : s.phase ≠ .idle ∨ p.cmdValid = false) :
    phaseEdge p s = phaseEdge q s := by
  cases hp : s.phase with
  | init _ => simp only [phaseEdge, hp]
  | exec _ _ _ => simp only [phaseEdge, hp]
  | resp _ => simp only [phaseEdge, hp, hready]
  | idle =>
    have hv : p.cmdValid = false := hno.resolve_left (not_not_intro hp)
    simp [phaseEdge, hp, ← hvalid, hv]

/-- Settles O36: `State.Waits.accept` is the acceptance edge; every other edge ignores the command pins
(`phaseEdge_ignores_command`). -/
theorem acceptanceLatchesCommand : Obligations.AcceptanceLatchesCommand := by
  unfold Obligations.AcceptanceLatchesCommand
  refine ⟨fun s hp hrst hv => ⟨_, Nat.le_add_left 1 _, step_of_waits hrst (.accept hp hv)⟩, ?_⟩
  intro s p q rest hrst hready hvalid hno
  cases hp : p.rst with
  | true =>
    have hq : q.rst = true := hrst ▸ hp
    rw [step_of_rst { s with host := p :: rest } hp, step_of_rst { s with host := q :: rest } hq]
    rfl
  | false =>
    have hq : q.rst = false := hrst ▸ hp
    have hno' : s.phase ≠ .idle ∨ p.cmdValid = false :=
      hno.imp_right fun h => h.resolve_right (Bool.eq_false_iff.mp hp)
    rw [step_of_running { s with host := p :: rest } hp,
      step_of_running { s with host := q :: rest } hq]
    exact phaseEdge_ignores_command hready hvalid hno'

end Sys2Proof.Machine

/-! # Encoding family, part 5: the output ports (30_encoding.md R72) -/

namespace Sys2Proof.Machine

theorem Phase.isIdle_iff (p : Phase) : p.isIdle = true ↔ p = .idle := by
  cases p <;> simp [Phase.isIdle]

theorem Phase.response_isSome_iff (p : Phase) : p.response.isSome = true ↔ ∃ r, p = .resp r := by
  cases p <;> simp [Phase.response]

/-- Outside RESP the response port shows zeros (30_encoding.md R72). -/
theorem Phase.shownResponse_of_ne_resp {p : Phase} (h : ∀ r, p ≠ .resp r) :
    p.shownResponse = ⟨0, .ok, false⟩ := by
  cases p with
  | init _ | idle | exec _ _ _ => rfl
  | resp r => exact absurd rfl (h r)

/-- The code on `rsp_err` is R85's of the error it carries. -/
theorem rspErrCode_of_err (e : RspErr) : (e = .ok → rspErrCode e = 0#2) ∧
    (e = .illegal → rspErrCode e = 1#2) ∧ (e = .range → rspErrCode e = 2#2) := by
  refine ⟨?_, ?_, ?_⟩ <;> rintro rfl <;> rfl

/-- In RESP the response port shows the response (30_encoding.md R72, R85). -/
theorem State.ports_of_resp {s : State} {r : Response} (h : s.phase = .resp r) :
    s.ports.rspValid = true ∧ s.ports.rspData = r.data ∧ s.ports.rspErr = rspErrCode r.err ∧
      s.ports.rspOvf = r.ovf := by
  simp [State.ports, h, Phase.response, Phase.shownResponse]

/-- Outside IDLE the core is busy and not ready (30_encoding.md R72). -/
theorem State.ports_of_not_idle {s : State} (h : s.phase ≠ .idle) :
    s.ports.cmdReady = false ∧ s.ports.busy = true := by
  have hidle : s.phase.isIdle = false := Bool.eq_false_iff.mpr ((Phase.isIdle_iff _).not.mpr h)
  simp [State.ports, hidle]

/-- Settles O41: each port by the lemma on the phase it reads. -/
theorem outputPortsShowTheState : Obligations.OutputPortsShowTheState := by
  unfold Obligations.OutputPortsShowTheState
  intro s
  refine ⟨?_, ?_, Phase.response_isSome_iff s.phase, fun r hr => ?_, fun hr => ?_, rfl, rfl, ?_⟩
  · simp [State.ports, Phase.isIdle_iff]
  · simp [State.ports, ← Phase.isIdle_iff]
  · obtain ⟨-, hdata, herr, hovf⟩ := State.ports_of_resp hr
    rw [herr]
    exact ⟨hdata, hovf, rspErrCode_of_err r.err⟩
  · simp [State.ports, Phase.shownResponse_of_ne_resp hr, rspErrCode]
  · simp [State.ports, alertLine, flagIll, flagRng, flagAccovf, or_assoc]

end Sys2Proof.Machine

/-! # Encoding family, part 6: runs of edges in EXEC and in RESP (30_encoding.md R74 to R76) -/

namespace Sys2Proof.Machine

/-- A run of edges is the rest of the run after its first part. -/
theorem runEdges_add (j k : Nat) (s : State) : runEdges (j + k) s = runEdges k (runEdges j s) := by
  induction j generalizing s with
  | zero => rw [Nat.zero_add]; rfl
  | succ j ih =>
    obtain ⟨t, h⟩ := step_total s
    rw [Nat.succ_add, runEdges_succ _ s t h, runEdges_succ _ s t h, ih]

/-- The last edge of a run acts on the state the edges before it leave. -/
theorem runEdges_succ_last {k : Nat} {s t : State} (h : step (runEdges k s) = .next t) :
    runEdges (k + 1) s = t := by
  rw [runEdges_add, runEdges_succ 0 _ t h]; rfl

theorem State.pinsAt_zero (s : State) : s.pinsAt 0 = s.pins := by
  simp [State.pinsAt, State.pins, List.head?_eq_getElem?]

/-- The pins of an edge after the coming one (log 1). -/
theorem State.pinsAt_succ {s t : State} (h : t.host = s.host.tail) (j : Nat) :
    t.pinsAt j = s.pinsAt (j + 1) := by
  simp [State.pinsAt, h, List.getD_eq_getElem?_getD]

/-- `s` once `k` edges have gone by that took their pins and left it in phase `p` (log 1). -/
def State.afterWaiting (s : State) (k : Nat) (p : Phase) : State :=
  { s with host := s.host.drop k, phase := p }

@[simp] theorem State.afterWaiting_phase (s : State) (k : Nat) (p : Phase) :
    (s.afterWaiting k p).phase = p := rfl

@[simp] theorem State.afterWaiting_pins (s : State) (k : Nat) (p : Phase) :
    (s.afterWaiting k p).pins = s.pinsAt k := pins_of_drop s k p s.execDraws

theorem State.afterWaiting_zero {s : State} {p : Phase} (h : s.phase = p) :
    s.afterWaiting 0 p = s := by subst h; rfl

theorem State.afterWaiting_takePins (s : State) (k : Nat) (p p' : Phase) :
    { (s.afterWaiting k p).takePins with phase := p' } = s.afterWaiting (k + 1) p' := by
  simp [State.afterWaiting, State.takePins, List.tail_drop]

/-- One more waiting edge, whatever it does to the phase. -/
theorem runEdges_afterWaiting_succ {s : State} {k : Nat} {p p' : Phase}
    (h : runEdges k s = s.afterWaiting k p) (hrst : (s.pinsAt k).rst = false)
    (hw : (s.afterWaiting k p).Waits p' s.execDraws) :
    runEdges (k + 1) s = s.afterWaiting (k + 1) p' := by
  rw [← State.afterWaiting_takePins s k p p']
  apply runEdges_succ_last
  rw [h]
  exact step_of_waits (by rw [State.afterWaiting_pins]; exact hrst) hw

/-- In EXEC nothing but the edge count and the pins changes before the last edge (30_encoding.md R74). -/
theorem runEdges_exec {s : State} {w : CmdWord} {d left : Nat} (hp : s.phase = .exec w d left)
    (hrst : ∀ j, j < left → (s.pinsAt j).rst = false) (j : Nat) (hj : j < left) :
    runEdges j s = s.afterWaiting j (.exec w d (left - j)) := by
  induction j with
  | zero => exact (State.afterWaiting_zero hp).symm
  | succ j ih =>
    have hlt : j < left := by omega
    rw [Nat.sub_succ']
    exact runEdges_afterWaiting_succ (ih hlt) (hrst j hlt) (.countExec w d (left - j) rfl (by omega))

/-- The last edge of EXEC is the command step, at the state with the edges' pins taken off (30_encoding.md R74). -/
theorem runEdges_exec_commit {s : State} {w : CmdWord} {d left : Nat}
    (hp : s.phase = .exec w d left) (hl : 1 ≤ left)
    (hrst : ∀ j, j < left → (s.pinsAt j).rst = false) :
    ∃ t r, runCommand w d (s.afterWaiting left (.exec w d 1)) = .next t ∧
      runEdges left s = t ∧ t.phase = .resp r := by
  obtain ⟨m, rfl⟩ : ∃ m, left = m + 1 := ⟨left - 1, by omega⟩
  have hbefore : runEdges m s = s.afterWaiting m (.exec w d 1) := by
    simpa using runEdges_exec hp hrst m (Nat.lt_succ_self m)
  obtain ⟨t, r, hrun, hr⟩ := runCommand_total w d (s.afterWaiting (m + 1) (.exec w d 1))
  refine ⟨t, r, hrun, runEdges_succ_last ?_, hr⟩
  have hrstm : (s.afterWaiting m (.exec w d 1)).pins.rst = false := by
    rw [State.afterWaiting_pins]; exact hrst m (Nat.lt_succ_self m)
  rw [hbefore, step_commit hrstm rfl le_rfl, ← hrun, ← State.afterWaiting_takePins s m (.exec w d 1)]
  rfl

/-- Settles O37, by induction on the edges gone by (`runEdges_exec`); the last one is the commit. -/
theorem commandCommitsAtItsLastEdge : Obligations.CommandCommitsAtItsLastEdge := by
  unfold Obligations.CommandCommitsAtItsLastEdge
  intro s w d left hp hl hrst
  exact ⟨runEdges_exec hp hrst, runEdges_exec_commit hp hl hrst⟩

/-- Without `rsp_ready` RESP stays, however many edges go by (30_encoding.md R75). -/
theorem runEdges_resp {s : State} {r : Response} (hp : s.phase = .resp r) (k : Nat)
    (hpins : ∀ j, j < k → (s.pinsAt j).rst = false ∧ (s.pinsAt j).rspReady = false) :
    runEdges k s = s.afterWaiting k (.resp r) := by
  induction k with
  | zero => exact (State.afterWaiting_zero hp).symm
  | succ k ih =>
    obtain ⟨hrst, hready⟩ := hpins k (Nat.lt_succ_self k)
    exact runEdges_afterWaiting_succ (ih fun j hj => hpins j (by omega)) hrst
      (.hold r rfl (by rw [State.afterWaiting_pins]; exact hready))

/-- Settles O38: RESP is held (`runEdges_resp`), its ports show the response (`State.ports_of_resp`), and the edge with
`rsp_ready` hands it over. -/
theorem responseHeldUntilReady : Obligations.ResponseHeldUntilReady := by
  unfold Obligations.ResponseHeldUntilReady
  intro s r k hp hpins
  have hheld := runEdges_resp hp k hpins
  obtain ⟨hvalid, hdata, herr, hovf⟩ :=
    State.ports_of_resp (s := runEdges k s) (r := r) (by rw [hheld]; rfl)
  obtain ⟨hok, hill, hrange⟩ := rspErrCode_of_err r.err
  rw [← herr] at hok hill hrange
  refine ⟨?_, hvalid, hdata, hok, hill, hrange, hovf, fun hrst hready => ?_⟩
  · rw [hheld, State.afterWaiting, ← hp]
  · exact runEdges_afterWaiting_succ hheld hrst
      (.handOver r rfl (by rw [State.afterWaiting_pins]; exact hready))

/-- From EXEC to the end of the commit edge the core is not in IDLE (30_encoding.md R74). -/
theorem runEdges_exec_not_idle {s : State} {w : CmdWord} {d left : Nat}
    (hp : s.phase = .exec w d left) (hl : 1 ≤ left)
    (hrst : ∀ j, j < left → (s.pinsAt j).rst = false) (j : Nat) (hj : j ≤ left) :
    (runEdges j s).phase ≠ .idle := by
  rcases hj.lt_or_eq with hlt | rfl
  · rw [runEdges_exec hp hrst j hlt]
    exact Phase.noConfusion
  · obtain ⟨t, r, -, ht, hr⟩ := runEdges_exec_commit hp hl hrst
    rw [ht, hr]
    exact Phase.noConfusion

/-- Settles O39: the first edge accepts, and EXEC and RESP fill the T_EXEC + 1 edges after it
(`runEdges_exec_not_idle`). -/
theorem noAcceptanceWhileBusy : Obligations.NoAcceptanceWhileBusy := by
  unfold Obligations.NoAcceptanceWhileBusy
  intro s hp hv edges hrst j hj1 hj
  obtain ⟨k, rfl⟩ : ∃ k, j = k + 1 := ⟨j - 1, by omega⟩
  have haccept := step_of_waits ((State.pinsAt_zero s) ▸ hrst 0 (Nat.zero_le _)) (.accept hp hv)
  have hidle : (runEdges (k + 1) s).phase ≠ .idle := by
    rw [runEdges_succ k s _ haccept]
    have hk : k ≤ edges := by omega
    refine runEdges_exec_not_idle rfl (Nat.le_add_left 1 _) (fun i hi => ?_) k hk
    rw [State.pinsAt_succ (s := s) rfl]
    exact hrst (i + 1) hi
  exact ⟨hidle, State.ports_of_not_idle hidle⟩

end Sys2Proof.Machine

/-! # Encoding family, part 7: the assembler (30_encoding.md R90 to R92) -/

namespace Sys2Proof.Machine

section
variable {c : Config} {imm : Int}

/-- An `<imm>` in range assembles to its ACC_W-bit two's-complement pattern (30_encoding.md R90, R92). -/
theorem asmImm_of_inRange (hlo : -(2 : Int) ^ (c.accW - 1) ≤ imm) (hhi : imm < (2 : Int) ^ c.accW) :
    asmImm c imm = some (BitVec.ofInt c.accW imm).toNat := by
  rw [asmImm, if_pos ⟨hlo, hhi⟩, lowBits_eq_ofInt]

/-- Any other `<imm>` is an assembly error (30_encoding.md R90). -/
theorem asmImm_of_outOfRange (h : imm < -(2 : Int) ^ (c.accW - 1) ∨ (2 : Int) ^ c.accW ≤ imm) :
    asmImm c imm = none :=
  if_neg (by omega)

/-- What an `<imm>` assembles to fits the data port (30_encoding.md R71, R92). -/
theorem dataFits_of_asmImm {d : Nat} (h : asmImm c imm = some d) : dataFits c d = true := by
  unfold asmImm at h
  split at h
  · cases h
    exact decide_eq_true (lowBits_lt c.accW imm)
  · cases h

end

/-- A line of one command with one operand assembles to a well-formed command when every operand gives one. -/
theorem wellFormed_of_map {α : Type} {c : Config} {o : Option α} {f : α → Instr} {is : List Instr}
    (h : (o.map fun a => [f a]) = some is) (hf : ∀ a, o = some a → (f a).wellFormed c = true) :
    is ≠ [] ∧ ∀ i ∈ is, i.wellFormed c = true := by
  obtain ⟨a, ha, rfl⟩ := Option.map_eq_some_iff.mp h
  exact ⟨List.cons_ne_nil _ _, by simpa using hf a ha⟩

/-- The mask 0xF of CLRALL fits the data port (30_encoding.md R91). -/
theorem dataFits_clrall (c : Config) : dataFits c 0xF = true := by
  have hpow : 2 ^ 4 ≤ 2 ^ c.accW :=
    Nat.pow_le_pow_right (by norm_num) (by have := c.accW_bounds; omega)
  exact decide_eq_true (lt_of_lt_of_le (by norm_num) hpow)

/-- What assembles is a list of well-formed commands that is not empty (30_encoding.md R90 to R92). -/
theorem assemble_wellFormed {c : Config} {a : AsmCmd} {is : List Instr} (h : assemble c a = some is) :
    is ≠ [] ∧ ∀ i ∈ is, i.wellFormed c = true := by
  cases a with
  | compute _ | pushx _ | pushy _ | clrstat _ =>
    exact wellFormed_of_map h fun _ hd => dataFits_of_asmImm hd
  | getx _ | gety _ | rdcoef _ _ | rdreg _ => exact wellFormed_of_map h fun _ _ => rfl
  | nop | clear | rdstat | rdcfg | rdcur | rdlast => cases h; simp [Instr.wellFormed]
  | clrall => cases h; simp [Instr.wellFormed, dataFits_clrall]

/-- Settles O52: the operand's range decides (`asmImm_of_inRange`, `asmIndex_of_inRange` and their opposites), and the
operands that fit make well-formed commands (`assemble_wellFormed`). -/
theorem assembledCommandsAreWellFormed : Obligations.AssembledCommandsAreWellFormed := by
  unfold Obligations.AssembledCommandsAreWellFormed
  intro c
  refine ⟨fun a is => assemble_wellFormed, by simp [assemble], fun imm hlo hhi => ?_,
    fun imm hout => ?_, fun k h0 h255 => ?_, fun k hout => ?_⟩
  · simp [assemble, asmImm_of_inRange hlo hhi]
  · simp [assemble, asmImm_of_outOfRange hout]
  · obtain ⟨index, hindex, hasm⟩ := asmIndex_of_inRange h0 h255
    exact ⟨index, hindex, by simp [assemble, hasm], by simp [assemble, hasm]⟩
  · simp [assemble, asmIndex_of_outOfRange hout]

/-- A register name is its index (30_encoding.md R90). -/
theorem registerOf_name : ∀ p ∈ [("STATUS", (0 : Int)), ("CONFIG", 1), ("CURSOR", 2), ("LASTLO", 3),
    ("LASTHI", 4), ("SCALENUM", 5), ("SCALEDEN", 6), ("OUTCODE", 7)],
    registerOf p.1.toList = some p.2 := by
  decide

/-- No register name is a written number. -/
theorem numberOf_registerName : ∀ p ∈ registerNames, numberOf p.1 = none := by
  decide

/-- A written number as a register is itself (30_encoding.md R90; log 10). -/
theorem registerOf_number {tok : List Char} {v : Int} (h : numberOf tok = some v) :
    registerOf tok = some v := by
  have hname : registerNames.lookup tok = none := by
    rw [List.lookup_eq_none_iff]
    rintro p hp
    have hne : tok ≠ p.1 := by
      rintro rfl
      rw [numberOf_registerName p hp] at h
      cases h
    simpa using hne
  rw [registerOf, hname]
  exact h

/-- The mnemonics without an operand and their commands (30_encoding.md R90, R91). -/
theorem bareMnemonics_lookup : ∀ p ∈ [("NOP", AsmCmd.nop), ("CLEAR", .clear), ("RDSTAT", .rdstat),
    ("RDCFG", .rdcfg), ("RDCUR", .rdcur), ("RDLAST", .rdlast), ("CLRALL", .clrall)],
    bareMnemonics.lookup p.1.toList = some p.2 := by
  decide

/-- RDREG takes its operand as a register (30_encoding.md R90). -/
theorem oneOperand_rdreg (tok : List Char) :
    oneOperand "RDREG".toList tok = (registerOf tok).map .rdreg := rfl

/-- RDCOEF takes a bank, a comma and an index (30_encoding.md R90). -/
theorem commandOf_rdcoef {m bank tok : List Char} {b : Bank} (hm : m.map Char.toUpper = "RDCOEF".toList)
    (hb : bankOf bank = some b) :
    commandOf [m, bank, [','], tok] = (numberOf tok).map (AsmCmd.rdcoef b) := by
  simp only [commandOf, hm, hb, if_true]
  cases numberOf tok <;> rfl

/-- Settles O54: the mnemonic in capitals picks the row of `bareMnemonics` or the branch of `oneOperand`, and a register
is a name (`registerOf_name`) or a number (`registerOf_number`). -/
theorem mnemonicsSelectTheirCommands : Obligations.MnemonicsSelectTheirCommands := by
  unfold Obligations.MnemonicsSelectTheirCommands
  intro m
  refine ⟨fun p hp hm => ?_, fun p hp hm tok => ?_, fun hm => ?_, fun hm tok => ?_⟩
  · rw [commandOf, hm]
    exact bareMnemonics_lookup p hp
  · rw [commandOf, hm]
    fin_cases hp <;> rfl
  · have hreg (tok : List Char) : commandOf [m, tok] = (registerOf tok).map .rdreg := by
      rw [commandOf, hm, oneOperand_rdreg]
    refine ⟨fun p hp => ?_, fun tok v hv => ?_⟩
    · rw [hreg, registerOf_name p hp]; rfl
    · rw [hreg, registerOf_number hv]; rfl
  · exact ⟨commandOf_rdcoef hm rfl, commandOf_rdcoef hm rfl⟩

end Sys2Proof.Machine

/-! # History-buffer family, part 1: the five commands (40_history_buffer.md R100 to R107)

One lemma says each value from its operand or its slot, and GETX and GETY share what an answer at a distance is. -/

namespace Sys2Proof.Machine

/-- The response as the library's pattern of the value (00_scope.md R14, R15). -/
theorem State.respond_eq (s : State) (v : Int) (ovf : Bool) :
    s.respond v ovf = { s with phase := .resp ⟨(BitVec.ofInt s.cfg.accW v).toNat, .ok, ovf⟩ } := by
  rw [State.respond, lowBits_eq_ofInt]

/-- A push as the slot it writes and the cursor it leaves (20_memory.md R52). -/
theorem History.push_eq (n : Nat) (b : History) (v : Int) :
    b.push n v = ⟨b.slots.set b.wp v, (b.wp + 1) % n⟩ := by
  rw [History.push, modN_succ]

/-- The raw sample is the low IN_W bits of the operand as two's complement (30_encoding.md R83, 41_engine.md R121). -/
theorem rawSample_eq (c : Config) (d : Nat) : rawSample c d = (BitVec.ofNat c.inW d).toInt := by
  have hw : 1 ≤ c.inW := by have := c.inW_bounds; omega
  rw [rawSample, wrapTo_eq_ofInt _ hw, BitVec.ofInt_natCast]

/-- The value of PUSHY is the low ACC_W bits of the operand as two's complement (30_encoding.md R83). -/
theorem pushValue_eq (c : Config) (d : Nat) : pushValue c d = (BitVec.ofNat c.accW d).toInt := by
  have hw : 1 ≤ c.accW := by have := c.accW_bounds; omega
  rw [pushValue, wrapTo_eq_ofInt _ hw, BitVec.ofInt_natCast]

/-- Settles O9: the pushed value is `rawSample_eq`'s, and PUSHX has one word. -/
theorem pushxResult : Obligations.PushxResult := by
  unfold Obligations.PushxResult
  refine ⟨fun d s => ?_, fun w d d' => decode_ok_iff_encodeWord w d (.pushx d')⟩
  simp only [exec, execPushx, State.respond_eq, History.push_eq, rawSample_eq]

/-- Settles O10: the pushed value is `pushValue_eq`'s, and wrapping does not change the pattern (`lowBits_wrapTo`). -/
theorem pushyResult : Obligations.PushyResult := by
  unfold Obligations.PushyResult
  refine ⟨fun d s => ?_, fun w d d' => decode_ok_iff_encodeWord w d (.pushy d')⟩
  have hdata : lowBits s.cfg.accW (BitVec.ofNat s.cfg.accW d).toInt = d % 2 ^ s.cfg.accW := by
    rw [← pushValue_eq, pushValue, lowBits_wrapTo, lowBits_natCast]
  simp only [exec, execPushy, State.respond, History.push_eq, pushValue_eq, hdata]

section
variable {s : State} {dist : Index} (b : History)

/-- A distance below N is answered with the entry there (40_history_buffer.md R104, R105). -/
theorem State.answer_get_of_lt (h : dist.toNat < s.cfg.n) :
    s.answer (distanceInRange s.cfg dist) (b.get s.cfg.n dist.toNat) =
      { s with phase := .resp ⟨(BitVec.ofInt s.cfg.accW (b.get s.cfg.n dist.toNat)).toNat, .ok, false⟩ } := by
  rw [distanceInRange, decide_eq_true h, State.answer_true, State.respond_eq]

/-- A distance of N or above is answered with RANGE, whatever the buffer holds (20_memory.md R55). -/
theorem State.answer_of_n_le (h : s.cfg.n ≤ dist.toNat) (v : Int) :
    s.answer (distanceInRange s.cfg dist) v =
      { s with status := s.status ||| 0x02#5, phase := .resp ⟨0, .range, false⟩ } := by
  rw [distanceInRange, decide_eq_false (Nat.not_lt.mpr h), State.answer_false]; rfl

end

/-- Settles O11: an answer at a distance, its slot as a natural number (`History.get_eq`), and GETX's table row. -/
theorem getxResult : Obligations.GetxResult := by
  unfold Obligations.GetxResult
  refine ⟨fun dist s => ⟨fun h => ?_, fun h => ?_⟩, fun w d dist => ?_⟩
  · rw [exec_getx, State.answer_get_of_lt _ h, History.get_eq _ _ _ h]
  · rw [exec_getx, State.answer_of_n_le h]
  · exact decode_ok_iff_and_mask w d (.getx dist) _ 0xFFFF00F0#32 4#4 _ (by decide) (by decide)
      (by decide) (selectCommand_eq_some_iff ..)

/-- Settles O12: the same for Y and GETY's table row. -/
theorem getyResult : Obligations.GetyResult := by
  unfold Obligations.GetyResult
  refine ⟨fun dist s => ⟨fun h => ?_, fun h => ?_⟩, fun w d dist => ?_⟩
  · rw [exec_gety, State.answer_get_of_lt _ h, History.get_eq _ _ _ h]
  · rw [exec_gety, State.answer_of_n_le h]
  · exact decode_ok_iff_and_mask w d (.gety dist) _ 0xFFFF00F0#32 5#4 _ (by decide) (by decide)
      (by decide) (selectCommand_eq_some_iff ..)

/-- Settles O13: the response 0 has the pattern 0, and CLEAR has one word. -/
theorem clearResult : Obligations.ClearResult := by
  unfold Obligations.ClearResult
  refine ⟨fun s => ?_, fun w d => ?_⟩
  · have hdata : lowBits s.cfg.accW 0 = 0 := lowBits_of_lt _ 0 (Nat.two_pow_pos _)
    simp only [exec, execClear, State.respond, hdata, History.cold]
  · exact (decode_ok_iff_encodeWord w d .clear).trans (and_iff_left trivial)

/-- Settles O22: no command but RDREG reads the two registers (`exec_ignores_output`), and none but COMPUTE writes them
(`exec_frame`). -/
theorem historyCommandsIgnoreOutputRegisters : Obligations.HistoryCommandsIgnoreOutputRegisters := by
  unfold Obligations.HistoryCommandsIgnoreOutputRegisters
  intro i s t last outcode hi h
  have hread : i.mnemonic ≠ .rdreg := fun hm => by simp [hm] at hi
  have hwrite : i.mnemonic ≠ .compute := fun hm => by simp [hm] at hi
  obtain ⟨t₁, t₂, h₁, h₂, heq⟩ := exec_ignores_output i s hread last outcode
  obtain ⟨_, -, -, -, -, hkeep⟩ := exec_frame h₂
  obtain ⟨hlast, houtcode⟩ := hkeep hwrite
  rw [h] at h₁; cases h₁
  rw [h₂, heq, hlast, houtcode]

end Sys2Proof.Machine

/-! # History-buffer family, part 2: the entries a run of pushes leaves (40_history_buffer.md R103) -/

namespace Sys2Proof.Machine

/-- Settles O25: every legal distance reads within the N+1 pushes. -/
theorem pushesEvictOldest : Obligations.PushesEvictOldest := by
  unfold Obligations.PushesEvictOldest
  intro n w b vs dist hb hlen hd
  have hget := History.get_pushAll_of_lt vs dist hb.length hb.cursor hd (by omega)
  rwa [hlen, Nat.add_sub_cancel] at hget

section
variable (n : Nat) (b : History)

/-- The last of a list of pushes is one push after the others. -/
theorem History.pushAll_concat (vs : List Int) (v : Int) :
    b.pushAll n (vs ++ [v]) = (b.pushAll n vs).push n v := by
  induction vs generalizing b with
  | nil => rfl
  | cons u rest ih => exact ih (b.push n u)

@[simp] theorem History.pushAll_length (vs : List Int) :
    (b.pushAll n vs).slots.length = b.slots.length := by
  induction vs generalizing b with
  | nil => rfl
  | cons u rest ih => exact (ih (b.push n u)).trans (History.push_length n b u)

theorem History.pushAll_wp_lt (hwp : b.wp < n) (vs : List Int) : (b.pushAll n vs).wp < n := by
  induction vs generalizing b with
  | nil => exact hwp
  | cons u rest ih => exact ih (b.push n u) (History.push_wp_lt hwp u)

end

/-- The first `k` terms of a sequence, in order. -/
def firstTerms (f : Nat → Int) (k : Nat) : List Int := (List.range k).map f

theorem firstTerms_succ (f : Nat → Int) (k : Nat) : firstTerms f (k + 1) = firstTerms f k ++ [f k] := by
  simp [firstTerms, List.range_succ]

/-- After the terms 0 to `m` of a sequence are pushed into a cold buffer, distance D reads term m-D, and 0 before the
first (20_memory.md R54). -/
theorem History.get_pushAll_firstTerms (n m dist : Nat) (f : Nat → Int) (hd : dist < n) :
    ((History.cold n).pushAll n (firstTerms f (m + 1))).get n dist =
      if dist ≤ m then f (m - dist) else 0 := by
  rw [History.cold, readAfterPushes n 0 dist _ (by omega) hd]
  have hlen : (firstTerms f (m + 1)).length = m + 1 := by simp [firstTerms]
  rw [hlen, Nat.add_sub_cancel]
  by_cases h : dist ≤ m
  · have hidx : m - dist < m + 1 := by omega
    simp [firstTerms, h, Nat.lt_succ_of_le h, hidx]
  · simp [h]

end Sys2Proof.Machine

/-! # History-buffer family, part 3: runs of COMPUTEs (40_history_buffer.md R106, R107; 41_engine.md R131) -/

namespace Sys2Proof.Machine

/-- Two states a COMPUTE cannot tell apart: the same configuration and histories (10_state.md R38). -/
structure State.SameHistories (s t : State) : Prop where
  cfg : s.cfg = t.cfg
  x : s.x = t.x
  y : s.y = t.y

/-- Two states that also agree in what only COMPUTE writes, LAST and OUTCODE (10_state.md R29, R30). -/
structure State.SameFilter (s t : State) : Prop extends State.SameHistories s t where
  last : s.last = t.last
  outcode : s.outcode = t.outcode

theorem State.SameFilter.refl (s : State) : s.SameFilter s := ⟨⟨rfl, rfl, rfl⟩, rfl, rfl⟩

theorem State.SameFilter.trans {s t u : State} (h : s.SameFilter t) (h' : t.SameFilter u) :
    s.SameFilter u :=
  ⟨⟨h.cfg.trans h'.cfg, h.x.trans h'.x, h.y.trans h'.y⟩, h.last.trans h'.last,
    h.outcode.trans h'.outcode⟩

/-- A COMPUTE reads the configuration and the histories, and what it leaves of the filter depends on nothing else
(41_engine.md R120). -/
theorem exec_compute_sameFilter {s t : State} (h : s.SameHistories t) (d : Nat) :
    ∃ s' t', exec (.compute d) s = .next s' ∧ exec (.compute d) t = .next t' ∧ s'.SameFilter t' := by
  obtain ⟨hcfg, hx, hy⟩ := h
  refine ⟨_, _, rfl, rfl, ⟨?_, ?_, ?_⟩, ?_, ?_⟩ <;> simp [hcfg, hx, hy]

/-- A command other than COMPUTE that leaves the filter undisturbed changes nothing of it (10_state.md R38). -/
theorem exec_undisturbed {i : Instr} (s : State) (hc : i.mnemonic ≠ .compute)
    (hi : i.mnemonic ∉ [.pushx, .pushy, .clear]) : ∃ s', exec i s = .next s' ∧ s'.SameFilter s := by
  obtain ⟨s', r, he, -, hcfg, -, -, hx, hy, hout, -⟩ := commandsWriteByAccessMatrix i s
  obtain ⟨hlast, houtcode⟩ := hout hc
  simp only [List.mem_cons, List.not_mem_nil, or_false, not_or] at hi
  obtain ⟨hpx, hpy, hcl⟩ := hi
  exact ⟨s', he, ⟨hcfg, hx (by simp [hc, hpx, hcl]), hy (by simp [hc, hpy, hcl])⟩, hlast, houtcode⟩

/-- A command that answers a next state is the first of a run of commands. -/
theorem runCommands_cons {i : Instr} {s t : State} (h : exec i s = .next t) (rest : List Instr) :
    runCommands (i :: rest) s = runCommands rest t := by
  simp [runCommands, h]

/-- A command other than COMPUTE adds no operand to the run's. -/
theorem computeOperands_cons_of_ne {i : Instr} (hc : i.mnemonic ≠ .compute) (rest : List Instr) :
    computeOperands (i :: rest) = computeOperands rest := by
  cases i with
  | compute _ => exact absurd rfl hc
  | _ => rfl

/-- The operands of a run of COMPUTEs are the listed ones. -/
theorem computeOperands_map_compute (ds : List Nat) : computeOperands (ds.map .compute) = ds := by
  induction ds with
  | nil => rfl
  | cons d rest ih => exact congrArg (d :: ·) ih

theorem filterUndisturbed_map_compute (ds : List Nat) : FilterUndisturbed (ds.map .compute) := by
  intro i hi
  obtain ⟨d, -, rfl⟩ := List.mem_map.mp hi
  simp [Instr.mnemonic]

/-- An undisturbed run leaves of the filter what its COMPUTEs alone leave (41_engine.md R131). -/
theorem runCommands_undisturbed {s t : State} (h : s.SameFilter t) (is : List Instr)
    (hu : FilterUndisturbed is) :
    (runCommands is s).SameFilter (runCommands ((computeOperands is).map .compute) t) := by
  induction is generalizing s t with
  | nil => exact h
  | cons i rest ih =>
    obtain ⟨hi, hrest⟩ := List.forall_mem_cons.mp hu
    by_cases hc : i.mnemonic = .compute
    · obtain ⟨d, rfl⟩ := mnemonic_eq_compute hc
      obtain ⟨s', t', hs, ht, h'⟩ := exec_compute_sameFilter h.toSameHistories d
      have hops : computeOperands (.compute d :: rest) = d :: computeOperands rest := rfl
      rw [hops, List.map_cons, runCommands_cons hs, runCommands_cons ht]
      exact ih h' hrest
    · obtain ⟨s', hs, h'⟩ := exec_undisturbed s hc hi
      rw [runCommands_cons hs, computeOperands_cons_of_ne hc]
      exact ih (h'.trans h) hrest

/-- COMPUTEs keep two states equal in the filter (41_engine.md R120). -/
theorem runCommands_computes {s t : State} (h : s.SameFilter t) (ds : List Nat) :
    (runCommands (ds.map .compute) s).SameFilter (runCommands (ds.map .compute) t) := by
  simpa only [computeOperands_map_compute] using
    runCommands_undisturbed h _ (filterUndisturbed_map_compute ds)

/-- CLEAR leaves the configuration and the histories a reset leaves (40_history_buffer.md R107). -/
theorem exec_clear_sameHistories {s t : State} (h : exec .clear s = .next t) (host : List Pins)
    (draws : Nat) : t.SameHistories (State.cold s.cfg host draws) := by
  cases h
  exact ⟨rfl, rfl, rfl⟩

/-- Settles O27: CLEAR leaves the histories of reset, the first COMPUTE after it makes LAST and OUTCODE equal too, and
the others keep that. -/
theorem clearRestartsTheFilter : Obligations.ClearRestartsTheFilter := by
  unfold Obligations.ClearRestartsTheFilter
  intro s t host draws ds h
  have hcold := exec_clear_sameHistories h host draws
  cases ds with
  | nil => exact ⟨hcold.x, hcold.y, fun hne => absurd rfl hne⟩
  | cons d rest =>
    obtain ⟨s', t', hs, ht, hfirst⟩ := exec_compute_sameFilter hcold d
    have hrun := runCommands_computes hfirst rest
    intro a b
    have ha : a = _ := runCommands_cons hs _
    have hb : b = _ := runCommands_cons ht _
    rw [ha, hb]
    exact ⟨hrun.x, hrun.y, fun _ => ⟨hrun.last, hrun.outcode⟩⟩

section
variable (s : State) (ds : List Nat)

/-- COMPUTE n pushes one value, the accumulator, into Y (41_engine.md R126). -/
theorem afterComputes_succ_y {n : Nat} (h : n < ds.length) :
    ∃ acc, (afterComputes s ds (n + 1)).y = (afterComputes s ds n).y.push s.cfg.n acc := by
  rw [afterComputes_succ s ds n h, ← afterComputes_cfg s ds n h.le]
  exact ⟨_, rfl⟩

/-- COMPUTEs push their samples into X, in order (40_history_buffer.md R106). -/
theorem afterComputes_x {n : Nat} (h : n ≤ ds.length) :
    (afterComputes s ds n).x = s.x.pushAll s.cfg.n (firstTerms (sampleOf s.cfg ds) n) := by
  induction n with
  | zero => rfl
  | succ n ih =>
    rw [afterComputes_succ s ds n h, State.commitSum_x, afterComputes_cfg s ds n (by omega),
      ih (by omega), rawSample_eq, firstTerms_succ, History.pushAll_concat]
    rfl

/-- COMPUTEs push their accumulators into Y, in order (40_history_buffer.md R106). -/
theorem afterComputes_y {n : Nat} (hlen : s.y.slots.length = s.cfg.n) (hwp : s.y.wp < s.cfg.n)
    (h : n ≤ ds.length) :
    (afterComputes s ds n).y = s.y.pushAll s.cfg.n (firstTerms (accumulatorOf s ds) n) := by
  induction n with
  | zero => rfl
  | succ n ih =>
    obtain ⟨acc, hy⟩ := afterComputes_succ_y s ds h
    rw [ih (by omega)] at hy
    have hacc : accumulatorOf s ds n = acc := by
      rw [accumulatorOf, hy]
      exact History.get_push_zero _ _ acc (by simpa using hlen) (History.pushAll_wp_lt _ _ hwp _)
    rw [hy, firstTerms_succ, History.pushAll_concat, hacc]

end

section
variable {s : State} (hcold : s.HistoriesCold) {ds : List Nat} {n dist : Nat} (hn : n < ds.length)
  (hd : dist < s.cfg.n)
include hcold hn hd

/-- After COMPUTE n the X entry at distance D is x[n-D] (40_history_buffer.md R106). -/
theorem get_x_afterComputes :
    (afterComputes s ds (n + 1)).x.get s.cfg.n dist =
      if dist ≤ n then sampleOf s.cfg ds (n - dist) else 0 := by
  obtain ⟨hx, -⟩ := hcold
  rw [afterComputes_x s ds hn, hx, History.get_pushAll_firstTerms _ _ _ _ hd]

/-- After COMPUTE n the Y entry at distance D is y[n-D] (40_history_buffer.md R106). -/
theorem get_y_afterComputes :
    (afterComputes s ds (n + 1)).y.get s.cfg.n dist =
      if dist ≤ n then accumulatorOf s ds (n - dist) else 0 := by
  obtain ⟨-, hy⟩ := hcold
  have hwf := History.cold_wellFormed s.cfg.n s.cfg.accW s.cfg.n_pos
  rw [← hy] at hwf
  rw [afterComputes_y s ds hwf.length hwf.cursor hn, hy, History.get_pushAll_firstTerms _ _ _ _ hd]

end

/-- Settles O26: the run leaves the histories of its COMPUTEs alone (`runCommands_undisturbed`), where the reads are
`get_x_afterComputes` and `get_y_afterComputes`. -/
theorem historyAfterComputes : Obligations.HistoryAfterComputes := by
  unfold Obligations.HistoryAfterComputes
  intro s is n dist hcold hu hlen hd ds t answer
  have hrun : t.SameFilter (afterComputes s ds (n + 1)) := by
    rw [afterComputes, ← hlen, List.take_length]
    exact runCommands_undisturbed (State.SameFilter.refl s) is hu
  have hn : n < ds.length := hlen ▸ n.lt_succ_self
  have hcfg : t.cfg = s.cfg := hrun.cfg.trans (afterComputes_cfg s ds (n + 1) hn)
  have hx := hrun.x ▸ get_x_afterComputes hcold hn hd
  have hy := hrun.y ▸ get_y_afterComputes hcold hn hd
  have hdist : (BitVec.ofNat 8 dist).toNat = dist := Nat.mod_eq_of_lt (hd.trans_le s.cfg.n_le)
  have hd' : (BitVec.ofNat 8 dist).toNat < t.cfg.n := by rw [hdist, hcfg]; exact hd
  simp only [answer]
  constructor
  · rw [exec_getx, State.answer_get_of_lt _ hd', hdist, hcfg, hx]
  · rw [exec_gety, State.answer_get_of_lt _ hd', hdist, hcfg, hy]

end Sys2Proof.Machine

/-! # Engine family, part 1: one COMPUTE (41_engine.md R120 to R130)

The wrapped sum and the scaled output as the library's operations, and the sum over the taps as a finite sum and as a sum
over any order of the taps. -/

namespace Sys2Proof.Machine

section
variable (c : Config)

theorem one_le_accW : 1 ≤ c.accW := by have := c.accW_bounds; omega

/-- q is the exact product divided toward zero (41_engine.md R127). -/
theorem scaledOutput_eq (acc : Int) : scaledOutput c acc = Int.tdiv (acc * c.snum) c.sden :=
  tdiv_eq _ _

/-- The exact sum over the tap indexes of the spec: i = 0 to N-1 forward, i = 1 to N-1 back (41_engine.md R122 to R124). -/
theorem tapSum_eq_sum (x y : History) :
    tapSum c x y = ∑ i ∈ Finset.range c.n, c.num.getD i 0 * x.get c.n i +
      ∑ i ∈ Finset.Ico 1 c.n, c.den.getD (i - 1) 0 * y.get c.n i := by
  rw [tapSum, sumBelow_eq_sum, sumBelow_eq_sum, Finset.sum_Ico_eq_sum_range]
  simp only [Nat.add_comm 1, numTap, denTap]

end

/-- The whole of COMPUTE, its values as the library writes them (41_engine.md R120). -/
theorem exec_compute_eq (d : Nat) (s : State) :
    let x := s.x.push s.cfg.n (rawSample s.cfg d)
    let sum := tapSum s.cfg x s.y
    let acc := (BitVec.ofInt s.cfg.accW sum).toInt
    let q := Int.tdiv (acc * s.cfg.snum) s.cfg.sden
    let ovf := decide ((2 : Int) ^ s.cfg.outW ≤ q)
    exec (.compute d) s =
      .next { s with
        x := x
        y := s.y.push s.cfg.n acc
        status := computeStatus s.status (decide (sum ≠ acc)) ovf
        last := q
        outcode := (q % 2 ^ s.cfg.outW).toNat
        phase := .resp ⟨(BitVec.ofInt s.cfg.accW q).toNat, .ok, ovf⟩ } := by
  simp only [exec, execCompute, State.commitSum, State.respond_eq, accWrapped, scaledOutput_eq,
    wrapTo_eq_ofInt _ (one_le_accW s.cfg), outOverflow, lowBits]

/-- Settles O17: `exec_compute_eq` with the pushes and the reads written as slots, and COMPUTE has one word. -/
theorem computeResult : Obligations.ComputeResult := by
  unfold Obligations.ComputeResult
  refine ⟨fun d s => ?_, fun w d d' => decode_ok_iff_encodeWord w d (.compute d')⟩
  intro n x sum acc q ovf
  have hx : s.x.push n (rawSample s.cfg d) = x := by rw [History.push_eq, rawSample_eq]
  have hread (b : History) {i : Nat} (hi : i < n) :
      b.get n i = b.slots.getD ((b.wp + (n - 1 - i)) % n) 0 := History.get_eq n b i hi
  have hsum : tapSum s.cfg x s.y = sum := by
    rw [tapSum_eq_sum]
    refine congrArg₂ (· + ·) (Finset.sum_congr rfl fun i hi => ?_)
      (Finset.sum_congr rfl fun i hi => ?_)
    · rw [hread x (Finset.mem_range.mp hi)]
    · rw [hread s.y (Finset.mem_Ico.mp hi).2]
  refine ⟨computeStatus s.status (decide (sum ≠ acc)) ovf, ?_, flagIll_computeStatus ..,
    flagRng_computeStatus .., flagAccovf_computeStatus .., flagOutovf_computeStatus ..,
    flagLastovf_computeStatus ..⟩
  rw [exec_compute_eq]
  simp only [History.push_eq s.cfg.n s.y]
  rw [hx, hsum]

/-- Settles O28: the wrap is in range and congruent to the sum, and changes exactly the sums out of range. -/
theorem accumulatorWrapsAndLatches : Obligations.AccumulatorWrapsAndLatches := by
  unfold Obligations.AccumulatorWrapsAndLatches
  intro d s hs
  refine ⟨_, rfl, ?_⟩
  intro sum acc
  have hw := one_le_accW s.cfg
  have hacc : acc = wrapTo s.cfg.accW sum := History.get_push_zero _ _ _ hs.y.length hs.y.cursor
  rw [hacc]
  refine ⟨wrapTo_inSigned _ hw sum, Int.ModEq.dvd (wrapTo_emod _ sum), wrapTo_of_inSigned _ hw sum,
    ?_, scaledOutput_eq _ _⟩
  rw [State.commitSum_status, flagAccovf_computeStatus, Bool.or_eq_true, accWrapped_iff]
  exact Iff.rfl

/-- The sign of a truncated quotient is that of the product of its operands (00_scope.md R14). -/
theorem tdiv_eq_sign_mul (a b : Int) : tdiv a b = (a * b).sign * (a.natAbs / b.natAbs : Nat) := by
  rw [tdiv, Int.sign_mul]

/-- The product of two values of the signed ACC_W range has at most 2·ACC_W - 2 bits of magnitude (41_engine.md R134). -/
theorem natAbs_mul_snum_le (c : Config) {acc : Int} (h : InSigned c.accW acc) :
    (acc * c.snum).natAbs ≤ 2 ^ (2 * c.accW - 2) := by
  have hw := one_le_accW c
  have hle {v : Int} (hv : InSigned c.accW v) : v.natAbs ≤ 2 ^ (c.accW - 1) := by
    zify; exact abs_le.mpr ⟨hv.1, hv.2.le⟩
  calc (acc * c.snum).natAbs
      ≤ 2 ^ (c.accW - 1) * 2 ^ (c.accW - 1) := by
        rw [Int.natAbs_mul]; exact Nat.mul_le_mul (hle h) (hle c.snum_inSigned)
    _ = 2 ^ (2 * c.accW - 2) := by rw [← pow_add]; congr 1; omega

/-- Settles O29: the quotient's magnitude and sign are those of the definition of tdiv, and dividing does not increase the
product's magnitude. -/
theorem scaledOutputTruncatesAndFits : Obligations.ScaledOutputTruncatesAndFits := by
  unfold Obligations.ScaledOutputTruncatesAndFits
  intro c acc hacc product q
  have habs : q.natAbs = product.natAbs / c.sden.natAbs := tdiv_natAbs _ _
  have hq : q = (product * c.sden).sign * (product.natAbs / c.sden.natAbs : Nat) :=
    tdiv_eq_sign_mul _ _
  have hproduct := natAbs_mul_snum_le c hacc
  refine ⟨habs, fun h => ?_, fun h => ?_, hproduct, ?_, scaledOutput_inSigned c acc hacc⟩
  · exact hq ▸ mul_nonneg (Int.sign_nonneg_iff.mpr h) (Int.natCast_nonneg _)
  · exact hq ▸ mul_nonpos_of_nonpos_of_nonneg (Int.sign_nonpos_iff.mpr h) (Int.natCast_nonneg _)
  · exact habs ▸ (Nat.div_le_self _ _).trans hproduct

/-- The signed reading of the low W bits of a value of magnitude below 2^(W-1) is the value (41_engine.md R130). -/
theorem toInt_ofNat_lowBits {w : Nat} (hw : 1 ≤ w) {v : Int} (h : v.natAbs < 2 ^ (w - 1)) :
    (BitVec.ofNat w (lowBits w v)).toInt = v := by
  have hlt : |v| < 2 ^ (w - 1) := by zify at h; exact h
  rw [lowBits_eq_ofInt, BitVec.ofNat_toNat, BitVec.setWidth_eq, ← wrapTo_eq_ofInt w hw]
  exact wrapTo_of_inSigned w hw v ⟨(abs_lt.mp hlt).1.le, (abs_lt.mp hlt).2⟩

/-- Settles O30: the response carries the low ACC_W bits of q, whose low OUT_W bits are those of q (`lowBits_mod`). -/
theorem computeResponseCarriesCommittedValue : Obligations.ComputeResponseCarriesCommittedValue := by
  unfold Obligations.ComputeResponseCarriesCommittedValue
  intro d s
  obtain ⟨-, hout⟩ := s.cfg.outW_bounds
  exact ⟨_, _, rfl, rfl, lowBits_eq_ofInt _ _, rfl, rfl,
    toInt_ofNat_lowBits (one_le_accW s.cfg), lowBits_mod _ _ hout _, rfl, rfl⟩

/-- Σ f(i) for i in 0 .. k-1 is the sum over the indexes in any order (41_engine.md R124). -/
theorem sumBelow_eq_of_perm (f : Nat → Int) {k : Nat} {order : List Nat}
    (h : order.Perm (List.range k)) : sumBelow f k = (order.map f).sum := by
  rw [(h.map f).sum_eq, sumBelow_eq_sum]
  rfl

/-- Wrapping each term of a sum changes it by a multiple of 2^W (41_engine.md R124). -/
theorem sum_map_wrapTo_modEq (w : Nat) (f : Nat → Int) (order : List Nat) :
    (order.map fun i => wrapTo w (f i)).sum ≡ (order.map f).sum [ZMOD 2 ^ w] :=
  Int.ModEq.listSum_map fun i _ => wrapTo_emod w (f i)

/-- Settles O31: the order of the taps does not change the sum, and wrapping the products does not change it modulo
2^ACC_W. -/
theorem accumulatorFromWrappedProducts : Obligations.AccumulatorFromWrappedProducts := by
  unfold Obligations.AccumulatorFromWrappedProducts
  intro c x y order order' h h'
  rw [tapSum, sumBelow_eq_of_perm _ h, sumBelow_eq_of_perm _ h']
  exact wrapTo_congr _ _ _
    ((sum_map_wrapTo_modEq _ _ order).add (sum_map_wrapTo_modEq _ _ order')).symm

end Sys2Proof.Machine

/-! # Engine family, part 2: the difference equation of a run of COMPUTEs (41_engine.md R131 to R133)

Two laws of a run from cold histories: every accumulator is the wrap of the equation's right-hand side, and every LAST is
that accumulator scaled. Superposition is proved once for any modulus, 0 being equality. -/

namespace Sys2Proof.Machine

/-- The right-hand side of the difference equation for samples `x` and accumulators `y`, both 0 before the first
(41_engine.md R131). -/
def equationSum (c : Config) (x y : Nat → Int) (n : Nat) : Int :=
  ∑ i ∈ Finset.range c.n, c.num.getD i 0 * (if i ≤ n then x (n - i) else 0) +
    ∑ i ∈ Finset.Ico 1 c.n, c.den.getD (i - 1) 0 * (if i + 1 ≤ n then y (n - 1 - i) else 0)

section
variable (s : State) (ds : List Nat) {n : Nat}

/-- COMPUTE n wraps the sum over the X after its push and the Y before its own (41_engine.md R120, R126). -/
theorem accumulatorOf_eq_wrapTo_tapSum (hy : s.y.WellFormed s.cfg.n s.cfg.accW) (h : n < ds.length) :
    accumulatorOf s ds n =
      wrapTo s.cfg.accW (tapSum s.cfg (afterComputes s ds (n + 1)).x (afterComputes s ds n).y) := by
  have hyn := afterComputes_y s ds hy.length hy.cursor h.le
  rw [accumulatorOf, afterComputes_succ s ds n h, State.commitSum_y, State.commitSum_x,
    afterComputes_cfg s ds n h.le]
  refine History.get_push_zero _ _ _ ?_ ?_
  · exact hyn ▸ (History.pushAll_length ..).trans hy.length
  · exact hyn ▸ History.pushAll_wp_lt _ _ hy.cursor _

/-- COMPUTE n scales the accumulator it pushes (41_engine.md R127). -/
theorem afterComputes_last (hy : s.y.WellFormed s.cfg.n s.cfg.accW) (h : n < ds.length) :
    (afterComputes s ds (n + 1)).last = scaledOutput s.cfg (accumulatorOf s ds n) := by
  rw [accumulatorOf_eq_wrapTo_tapSum s ds hy h, afterComputes_succ s ds n h, State.commitSum_last,
    State.commitSum_x, afterComputes_cfg s ds n h.le]

/-- COMPUTE n sets ACCOVF exactly when it was set or its sum wraps (41_engine.md R125). -/
theorem afterComputes_accovf (h : n < ds.length) :
    flagAccovf (afterComputes s ds (n + 1)).status = (flagAccovf (afterComputes s ds n).status ||
      accWrapped s.cfg (tapSum s.cfg (afterComputes s ds (n + 1)).x (afterComputes s ds n).y)) := by
  rw [afterComputes_succ s ds n h, State.commitSum_status, State.commitSum_x,
    flagAccovf_computeStatus, afterComputes_cfg s ds n h.le]

end

section
variable {s : State} (hcold : s.HistoriesCold) {ds : List Nat} {n : Nat} (hn : n < ds.length)
include hcold

theorem State.HistoriesCold.y_wellFormed : s.y.WellFormed s.cfg.n s.cfg.accW := by
  obtain ⟨-, hy⟩ := hcold
  exact hy ▸ History.cold_wellFormed _ _ s.cfg.n_pos

include hn

/-- Before COMPUTE n pushes its accumulator, the Y entry at distance D is y[n-1-D] (41_engine.md R131). -/
theorem get_y_before_compute {dist : Nat} (hd : dist < s.cfg.n) :
    (afterComputes s ds n).y.get s.cfg.n dist =
      if dist + 1 ≤ n then accumulatorOf s ds (n - 1 - dist) else 0 := by
  cases n with
  | zero =>
    obtain ⟨-, hy⟩ := hcold
    have hzero : (afterComputes s ds 0).y = History.cold s.cfg.n := hy
    rw [hzero, History.cold, History.get_replicate_zero]
    rfl
  | succ m =>
    rw [get_y_afterComputes hcold (by omega) hd]
    simp only [Nat.add_le_add_iff_right, Nat.add_sub_cancel]

/-- The exact sum of COMPUTE n is the difference equation's (41_engine.md R131). -/
theorem tapSum_afterComputes :
    tapSum s.cfg (afterComputes s ds (n + 1)).x (afterComputes s ds n).y =
      equationSum s.cfg (sampleOf s.cfg ds) (accumulatorOf s ds) n := by
  rw [tapSum_eq_sum]
  refine congrArg₂ (· + ·) (Finset.sum_congr rfl fun i hi => ?_)
    (Finset.sum_congr rfl fun i hi => ?_)
  · rw [get_x_afterComputes hcold hn (Finset.mem_range.mp hi)]
  · rw [get_y_before_compute hcold hn (Finset.mem_Ico.mp hi).2]

/-- The difference equation (41_engine.md R131). -/
theorem accumulatorOf_eq_wrapTo :
    accumulatorOf s ds n =
      wrapTo s.cfg.accW (equationSum s.cfg (sampleOf s.cfg ds) (accumulatorOf s ds) n) := by
  rw [accumulatorOf_eq_wrapTo_tapSum s ds hcold.y_wellFormed hn, tapSum_afterComputes hcold hn]

end

/-- Settles O32: the difference equation is `accumulatorOf_eq_wrapTo`, the other commands are
`runCommands_undisturbed`'s. -/
theorem differenceEquation : Obligations.DifferenceEquation := by
  unfold Obligations.DifferenceEquation
  refine ⟨fun s ds n hcold hn => ?_, fun s is hu => ?_⟩
  · rw [accumulatorOf_eq_wrapTo hcold hn, wrapTo_eq_ofInt _ (one_le_accW s.cfg), equationSum]
  · have hrun := runCommands_undisturbed (State.SameFilter.refl s) is hu
    exact ⟨hrun.x, hrun.y, hrun.last, hrun.outcode⟩

/-- Without feedback a unit impulse meets one tap, NUM[n] (41_engine.md R132). -/
theorem equationSum_impulse (c : Config) {x : Nat → Int} (y : Nat → Int) {n : Nat}
    (hden : ∀ v ∈ c.den, v = 0) (hx : ∀ m ≤ n, x m = if m = 0 then 1 else 0) :
    equationSum c x y n = if n < c.n then c.num.getD n 0 else 0 := by
  have hback (i : Nat) : c.den.getD i 0 = 0 := by
    rw [List.getD_eq_getElem?_getD]
    cases h : c.den[i]? with
    | none => rfl
    | some v => exact hden v (List.mem_of_getElem? h)
  have hterm (i : Nat) : c.num.getD i 0 * (if i ≤ n then x (n - i) else 0) =
      if n = i then c.num.getD i 0 else 0 := by
    by_cases hi : i ≤ n
    · have hiff : n - i = 0 ↔ n = i := by omega
      simp [hi, hx (n - i) (Nat.sub_le n i), hiff]
    · have hne : n ≠ i := by omega
      simp [hi, hne]
  simp only [equationSum, hback, hterm, zero_mul, Finset.sum_const_zero, add_zero,
    Finset.sum_ite_eq, Finset.mem_range]

/-- A tap of NUM, or the 0 past the last, is in the signed ACC_W range (00_scope.md R9). -/
theorem numTap_inSigned (c : Config) (i : Nat) : InSigned c.accW (c.num.getD i 0) := by
  rw [List.getD_eq_getElem?_getD]
  cases h : c.num[i]? with
  | none =>
    have hpos := two_pow_pos_int (c.accW - 1)
    exact ⟨neg_nonpos.mpr hpos.le, hpos⟩
  | some v => exact c.num_inSigned v (List.mem_of_getElem? h)

/-- Settles O33: the sum of COMPUTE n is NUM[n] (`equationSum_impulse`), which wrapping and scaling by 1/1 keep. -/
theorem impulseResponseIsNumerator : Obligations.ImpulseResponseIsNumerator := by
  unfold Obligations.ImpulseResponseIsNumerator
  intro s ds n hcold hden hsnum hsden hn hx
  have hnum : (if n < s.cfg.n then s.cfg.num.getD n 0 else 0) = s.cfg.num.getD n 0 := by
    split
    case isTrue => rfl
    case isFalse h =>
      rw [List.getD_eq_default _ _ (s.cfg.num_length ▸ Nat.not_lt.mp h)]
  constructor
  · rw [accumulatorOf_eq_wrapTo hcold hn,
      equationSum_impulse _ _ hden fun m hm => hx m (by omega), hnum,
      wrapTo_of_inSigned _ (one_le_accW s.cfg) _ (numTap_inSigned s.cfg n)]
  · rw [afterComputes_last s ds hcold.y_wellFormed hn, scaledOutput_eq, hsnum, hsden, mul_one,
      Int.tdiv_one]

/-- The equation's right-hand side is linear in the samples and the accumulators together (41_engine.md R133). -/
theorem equationSum_linear (c : Config) (xa xb ya yb : Nat → Int) (α β : Int) (n : Nat) :
    equationSum c (fun m => α * xa m + β * xb m) (fun m => α * ya m + β * yb m) n =
      α * equationSum c xa ya n + β * equationSum c xb yb n := by
  have hterm (k u v : Int) (p : Prop) [Decidable p] :
      k * (if p then α * u + β * v else 0) =
        α * (k * if p then u else 0) + β * (k * if p then v else 0) := by
    split <;> ring
  simp only [equationSum, hterm, Finset.sum_add_distrib, ← Finset.mul_sum]
  ring

/-- The right-hand side reads the samples up to n and the accumulators before n (41_engine.md R131). -/
theorem equationSum_modEq (c : Config) {M : Int} {x x' y y' : Nat → Int} {n : Nat}
    (hx : ∀ m ≤ n, x m = x' m) (hy : ∀ m < n, y m ≡ y' m [ZMOD M]) :
    equationSum c x y n ≡ equationSum c x' y' n [ZMOD M] := by
  refine Int.ModEq.add (Int.ModEq.sum fun i _ => .mul_left _ ?_)
    (Int.ModEq.sum fun i _ => .mul_left _ ?_)
  · rw [hx _ (Nat.sub_le n i)]
  · split
    case isTrue hi => exact hy _ (by omega)
    case isFalse => rfl

/-- Superposition: sequences that satisfy the difference equation modulo `M` combine as their samples do
(41_engine.md R133). -/
theorem superposition (c : Config) {M α β : Int} {xa xb xc ya yb yc : Nat → Int} {len : Nat}
    (hx : ∀ m < len, xc m = α * xa m + β * xb m)
    (ha : ∀ m < len, ya m ≡ equationSum c xa ya m [ZMOD M])
    (hb : ∀ m < len, yb m ≡ equationSum c xb yb m [ZMOD M])
    (hc : ∀ m < len, yc m ≡ equationSum c xc yc m [ZMOD M]) {n : Nat} (hn : n < len) :
    yc n ≡ α * ya n + β * yb n [ZMOD M] := by
  induction n using Nat.strong_induction_on with
  | _ n ih =>
    calc yc n
        ≡ equationSum c xc yc n [ZMOD M] := hc n hn
      _ ≡ equationSum c (fun m => α * xa m + β * xb m) (fun m => α * ya m + β * yb m) n [ZMOD M] :=
          equationSum_modEq c (fun m hm => hx m (by omega)) (fun m hm => ih m hm (by omega))
      _ = α * equationSum c xa ya n + β * equationSum c xb yb n := equationSum_linear ..
      _ ≡ α * ya n + β * yb n [ZMOD M] :=
          (((ha n hn).symm.mul_left α).add ((hb n hn).symm.mul_left β))

/-- ACCOVF is sticky over a run of COMPUTEs: clear at the end, it was clear after each (10_state.md R27). -/
theorem arithmeticExact_of_le {s : State} {ds : List Nat} {n k : Nat} (hnk : n ≤ k)
    (hk : k ≤ ds.length) (h : (afterComputes s ds k).ArithmeticExact) :
    (afterComputes s ds n).ArithmeticExact := by
  induction k, hnk using Nat.le_induction with
  | base => exact h
  | succ k _ ih =>
    rw [State.ArithmeticExact, afterComputes_accovf s ds hk, Bool.or_eq_false_iff] at h
    exact ih (by omega) h.1

/-- While ACCOVF is clear the accumulators satisfy the difference equation without wrapping (41_engine.md R125, R133). -/
theorem accumulatorOf_eq_of_exact {s : State} (hcold : s.HistoriesCold) {ds : List Nat} {n : Nat}
    (hn : n < ds.length) (h : (afterComputes s ds ds.length).ArithmeticExact) :
    accumulatorOf s ds n = equationSum s.cfg (sampleOf s.cfg ds) (accumulatorOf s ds) n := by
  have hexact := arithmeticExact_of_le hn le_rfl h
  rw [State.ArithmeticExact, afterComputes_accovf s ds hn, Bool.or_eq_false_iff] at hexact
  obtain ⟨-, hwrap⟩ := hexact
  have hsum := of_decide_eq_false hwrap
  rw [tapSum_afterComputes hcold hn, not_not] at hsum
  exact (accumulatorOf_eq_wrapTo hcold hn).trans hsum.symm

/-- Settles O34: `superposition` modulo 2^ACC_W, where every run satisfies the equation, and modulo 0, which is equality,
where the runs satisfy it exactly. -/
theorem accumulatorIsLinear : Obligations.AccumulatorIsLinear := by
  unfold Obligations.AccumulatorIsLinear
  intro c host draws as bs cs α β n hlas hlbs hn hx s
  have hcold : s.HistoriesCold := ⟨rfl, rfl⟩
  constructor
  · have hmod (ds : List Nat) (hlen : ds.length = cs.length) (m : Nat) (hm : m < cs.length) :
        accumulatorOf s ds m ≡
          equationSum c (sampleOf c ds) (accumulatorOf s ds) m [ZMOD 2 ^ c.accW] := by
      rw [accumulatorOf_eq_wrapTo hcold (hlen ▸ hm)]
      exact wrapTo_emod _ _
    exact (superposition c hx (hmod as hlas) (hmod bs hlbs) (hmod cs rfl) hn).symm.dvd
  · intro hexact
    have heq (ds : List Nat) (hds : ds ∈ [as, bs, cs]) (hlen : ds.length = cs.length) (m : Nat)
        (hm : m < cs.length) :
        accumulatorOf s ds m ≡ equationSum c (sampleOf c ds) (accumulatorOf s ds) m [ZMOD 0] :=
      Int.modEq_zero_iff.mpr (accumulatorOf_eq_of_exact hcold (hlen ▸ hm) (hexact ds hds))
    exact Int.modEq_zero_iff.mp
      (superposition c hx (heq as (by simp) hlas) (heq bs (by simp) hlbs) (heq cs (by simp) rfl) hn)

end Sys2Proof.Machine

/-! # Control family: NOP, RDCOEF, RDREG and CLRSTAT (42_control.md R150 to R154)

A response is the pattern of its value, and a value the port carries whole is its own pattern
(`State.respond_natCast_of_lt`). -/

namespace Sys2Proof.Machine

/-- A natural number below 2^ACC_W is responded as itself (00_scope.md R14, R15). -/
theorem State.respond_natCast_of_lt {s : State} {v : Nat} (hv : v < 2 ^ s.cfg.accW) (ovf : Bool) :
    s.respond v ovf = { s with phase := .resp ⟨v, .ok, ovf⟩ } := by
  rw [State.respond, lowBits_of_lt _ _ hv]

/-- RANGE sets STATUS.RNG and answers (0, RANGE, 0) (60_exceptions.md R172). -/
theorem State.raise_range_eq (s : State) :
    s.raise .range =
      { s with status := s.status ||| 0x02#5, phase := .resp ⟨0, .range, false⟩ } := rfl

/-- The data port carries every 64-bit value whole (00_scope.md R6). -/
theorem lt_two_pow_accW (c : Config) {v : Nat} (hv : v < 2 ^ 64) : v < 2 ^ c.accW :=
  hv.trans_le (Nat.pow_le_pow_right (by norm_num) c.accW_bounds.1)

/-- STATUS fits the data port (10_state.md R27). -/
theorem status_toNat_lt (c : Config) (st : StatusBits) : st.toNat < 2 ^ c.accW :=
  lt_two_pow_accW c (st.isLt.trans (by norm_num))

/-- Settles O8: NOP responds 0, and has one word. -/
theorem nopResult : Obligations.NopResult := by
  unfold Obligations.NopResult
  refine ⟨fun s => ?_, fun w d => ?_⟩
  · exact congrArg Host.Outcome.next (State.respond_natCast_of_lt (Nat.two_pow_pos _) false)
  · exact (decode_ok_iff_encodeWord w d .nop).trans (and_iff_left trivial)

section
variable {s : State} {bank : Bank} {index : Index}

/-- RDCOEF of a stored tap responds the tap's pattern (42_control.md R152). -/
theorem exec_rdcoef_of_stored (h : tapInRange s.cfg bank index = true) :
    exec (.rdcoef bank index) s =
      .next { s with
        phase := .resp ⟨(BitVec.ofInt s.cfg.accW (coefficient s.cfg bank index)).toNat, .ok, false⟩ } := by
  rw [exec_rdcoef, h, State.answer_true, State.respond_eq]

/-- RDCOEF of a tap that is not stored is RANGE (42_control.md R152). -/
theorem exec_rdcoef_of_not_stored (h : tapInRange s.cfg bank index = false) :
    exec (.rdcoef bank index) s =
      .next { s with status := s.status ||| 0x02#5, phase := .resp ⟨0, .range, false⟩ } := by
  rw [exec_rdcoef, h, State.answer_false, State.raise_range_eq]

end

/-- Settles O14: NUM stores the indexes below N and DEN those from 1 (`tapInRange`), and RDCOEF's table row. -/
theorem rdcoefResult : Obligations.RdcoefResult := by
  unfold Obligations.RdcoefResult
  refine ⟨fun index s => ⟨fun h => ?_, fun h => ?_, fun h1 h => ?_, fun h => ?_⟩, fun w d bank index => ?_⟩
  · exact exec_rdcoef_of_stored (bank := .num) (decide_eq_true h)
  · exact exec_rdcoef_of_not_stored (bank := .num) (decide_eq_false (by omega))
  · exact exec_rdcoef_of_stored (bank := .den) (decide_eq_true (by omega))
  · exact exec_rdcoef_of_not_stored (bank := .den) (decide_eq_false (by omega))
  · exact decode_ok_iff_and_mask w d (.rdcoef bank index) _ 0xFFFE00F0#32 7#4 _ (by decide) (by decide)
      (by decide) (selectCommand_eq_some_iff ..)

/-! The registers' values as patterns of the data port (10_state.md R27, R29 to R33). -/

theorem configValue_eq (c : Config) :
    configValue c = 2 ^ 32 + 2 ^ 24 * c.accW + 2 ^ 16 * c.outW + 2 ^ 8 * c.inW + c.log2n := by
  unfold configValue; omega

theorem configValue_lt (c : Config) : configValue c < 2 ^ c.accW := by
  apply lt_two_pow_accW
  have := c.log2n_le
  have := c.accW_bounds
  have := c.inW_bounds
  have := c.outW_bounds
  unfold configValue; omega

/-- Both cursors fit their byte, N being at most 256 (10_state.md R32). -/
theorem cursorValue_eq {x y : History} (hx : x.wp < 2 ^ 8) (hy : y.wp < 2 ^ 8) :
    cursorValue x y = 2 ^ 8 * y.wp + x.wp := by
  rw [cursorValue, Nat.mod_eq_of_lt hx, Nat.mod_eq_of_lt hy, Nat.mul_comm]

theorem cursorValue_lt (c : Config) (x y : History) : cursorValue x y < 2 ^ c.accW := by
  apply lt_two_pow_accW
  unfold cursorValue; omega

/-- The upper half of a 2w-bit pattern is a w-bit pattern (10_state.md R29). -/
theorem lowBits_div_lt (w : Nat) (v : Int) : lowBits (2 * w) v / 2 ^ w < 2 ^ w := by
  rw [Nat.div_lt_iff_lt_mul (Nat.two_pow_pos w), ← Nat.pow_add, ← Nat.two_mul]
  exact lowBits_lt (2 * w) v

theorem History.WellFormed.wp_lt_byte {c : Config} {b : History} {w : Nat} (h : b.WellFormed c.n w) :
    b.wp < 2 ^ 8 :=
  h.cursor.trans_le c.n_le

/-- OUTCODE is an OUT_W-bit value, and OUT_W is at most ACC_W (10_state.md R30). -/
theorem State.Inv.outcode_lt {s : State} (h : s.Inv) : s.outcode < 2 ^ s.cfg.accW := by
  rw [h.outcode]
  exact (lowBits_lt _ _).trans_le (Nat.pow_le_pow_right (by norm_num) s.cfg.outW_bounds.2)

section
variable {s : State} {index : Index}

/-- RDREG of a register responds its value (42_control.md R153). -/
theorem exec_rdreg_eq_respond {v : Int} (h : registerValue s index.toNat = some v) :
    exec (.rdreg index) s = .next (s.respond v false) := by
  simp only [exec, execRdreg, h]

/-- RDREG of a register responds the pattern of its value (42_control.md R153). -/
theorem exec_rdreg_of_value {v : Int} (h : registerValue s index.toNat = some v) :
    exec (.rdreg index) s =
      .next { s with phase := .resp ⟨(BitVec.ofInt s.cfg.accW v).toNat, .ok, false⟩ } := by
  rw [exec_rdreg_eq_respond h, State.respond_eq]

/-- RDREG of a register whose value the port carries whole responds the value (42_control.md R153). -/
theorem exec_rdreg_of_value_lt {v : Nat} (h : registerValue s index.toNat = some (v : Int))
    (hv : v < 2 ^ s.cfg.accW) :
    exec (.rdreg index) s = .next { s with phase := .resp ⟨v, .ok, false⟩ } := by
  rw [exec_rdreg_eq_respond h, State.respond_natCast_of_lt hv]

/-- RDREG of an index of 8 and above is RANGE (42_control.md R153). -/
theorem exec_rdreg_of_eight_le (h : 8 ≤ index.toNat) :
    exec (.rdreg index) s =
      .next { s with status := s.status ||| 0x02#5, phase := .resp ⟨0, .range, false⟩ } := by
  rw [exec_rdreg, decide_eq_false (Nat.not_lt.mpr h), State.answer_false, State.raise_range_eq]

end

/-- Settles O15: each register by its value (`exec_rdreg_of_value` for SNUM and SDEN, `exec_rdreg_of_value_lt` for those
the port carries whole), and RDREG's table row. -/
theorem rdregResult : Obligations.RdregResult := by
  unfold Obligations.RdregResult
  refine ⟨fun s hs index value hmem => ?_, fun s index h => exec_rdreg_of_eight_le h,
    fun w d index => ?_⟩
  · simp only [← configValue_eq, ← cursorValue_eq hs.x.wp_lt_byte hs.y.wp_lt_byte,
      ← lowBits_eq_ofInt s.cfg.accW s.last, ← lowBits_eq_ofInt (2 * s.cfg.accW), List.mem_cons,
      List.not_mem_nil, or_false, Prod.mk.injEq] at hmem
    rcases hmem with ⟨rfl, rfl⟩ | ⟨rfl, rfl⟩ | ⟨rfl, rfl⟩ | ⟨rfl, rfl⟩ | ⟨rfl, rfl⟩ | ⟨rfl, rfl⟩ |
      ⟨rfl, rfl⟩ | ⟨rfl, rfl⟩
    · exact exec_rdreg_of_value_lt rfl (status_toNat_lt s.cfg s.status)
    · exact exec_rdreg_of_value_lt rfl (configValue_lt s.cfg)
    · exact exec_rdreg_of_value_lt rfl (cursorValue_lt s.cfg s.x s.y)
    · exact exec_rdreg_of_value_lt rfl (lowBits_lt s.cfg.accW s.last)
    · exact exec_rdreg_of_value_lt rfl (lowBits_div_lt s.cfg.accW s.last)
    · exact exec_rdreg_of_value rfl
    · exact exec_rdreg_of_value rfl
    · exact exec_rdreg_of_value_lt rfl hs.outcode_lt
  · exact decode_ok_iff_and_mask w d (.rdreg index) _ 0xFFFF00F0#32 8#4 _ (by decide) (by decide)
      (by decide) (selectCommand_eq_some_iff ..)

/-- Settles O16: the response is the old STATUS, which the port carries whole, each sticky bit follows its mask bit
(`clearSticky_getLsbD`, `clearMask_getLsbD`), and CLRSTAT has one word. -/
theorem clrstatResult : Obligations.ClrstatResult := by
  unfold Obligations.ClrstatResult
  refine ⟨fun d s => ⟨clearSticky s.status (clearMask d), ?_, fun k hk => ?_,
    flagLastovf_clearSticky ..⟩, fun w d d' => decode_ok_iff_encodeWord w d (.clrstat d')⟩
  · have hdata : lowBits s.cfg.accW s.status.toNat = s.status.toNat :=
      lowBits_of_lt _ _ (status_toNat_lt s.cfg s.status)
    simp only [exec, execClrstat, State.respond, hdata]
  · rw [clearSticky_getLsbD _ _ _ hk, clearMask_getLsbD d k hk]

end Sys2Proof.Machine

/-! # Exceptions family: the effect of a refused command (60_exceptions.md R172)

An error is answered by `State.raise` only, at the decode step for ILLEGAL and in a command's own step for RANGE. -/

namespace Sys2Proof.Machine

/-- ILLEGAL sets STATUS.ILL and answers (0, ILLEGAL, 0) (60_exceptions.md R172). -/
theorem State.raise_illegal_eq (s : State) :
    s.raise .illegal =
      { s with status := s.status ||| 0x01#5, phase := .resp ⟨0, .illegal, false⟩ } := rfl

/-- A command that answers RANGE has no other effect: every other case of `exec_cases` answers OK
(60_exceptions.md R172, R173). -/
theorem eq_raise_range_of_exec_err {i : Instr} {s t : State} {r : Response} (h : exec i s = .next t)
    (hr : t.phase = .resp r) (herr : r.err = .range) : t = s.raise .range := by
  rcases exec_cases i s with ⟨d, -, h'⟩ | ⟨d, -, h'⟩ | ⟨d, -, h'⟩ | ⟨-, h'⟩ | ⟨d, -, h'⟩ |
    ⟨-, v, h'⟩ | ⟨-, h'⟩ <;> rw [h'] at h <;> cases h
  case inr.inr.inr.inr.inr.inr => rfl
  all_goals cases hr; cases herr

/-- Settles O6: a word that does not decode raises ILLEGAL; a command that decodes never answers ILLEGAL
(`exec_err_ne_illegal`), and RANGE only by raising it (`eq_raise_range_of_exec_err`). -/
theorem refusedCommandChangesOnlyItsStatusBit :
    Obligations.RefusedCommandChangesOnlyItsStatusBit := by
  unfold Obligations.RefusedCommandChangesOnlyItsStatusBit
  intro w d s
  rcases runCommand_cases w d s with ⟨i, -, hrun⟩ | ⟨e, -, hrun⟩
  · obtain ⟨t, r, h, hr⟩ := runCommand_total w d s
    have hexec : exec i s = .next t := hrun ▸ h
    exact ⟨t, r, h, hr, fun hill => absurd hill (exec_err_ne_illegal hexec hr),
      fun hrange => (eq_raise_range_of_exec_err hexec hr hrange).trans s.raise_range_eq⟩
  · exact ⟨_, _, hrun, rfl, fun _ => s.raise_illegal_eq, fun hrange => nomatch hrange⟩

end Sys2Proof.Machine

/-! # Reset family: the reset edge, its ports and INIT (70_reset_and_hazards.md R190 to R193)

A reset edge leaves `State.cold` (`step_of_rst`), so R190 and R192 speak of that state and its ports alone. R191 is a
run of edges that each count INIT down by one. -/

namespace Sys2Proof.Machine

theorem Phase.initFor_eq_ite (k : Nat) : Phase.initFor k = if k = 0 then .idle else .init k := by
  cases k <;> rfl

theorem Phase.initFor_eq_idle_iff (k : Nat) : Phase.initFor k = .idle ↔ k = 0 := by
  cases k <;> simp

theorem Phase.initFor_ne_resp (k : Nat) (r : Response) : Phase.initFor k ≠ .resp r := by
  cases k <;> exact Phase.noConfusion

/-- An edge at which `rst` = 1 accepts no command (30_encoding.md R72, 70_reset_and_hazards.md R190). -/
theorem State.not_cmdReady_of_rst {s : State} (h : s.pins.rst = true) : s.ports.cmdReady = false := by
  simp [State.ports, h]

/-- Settles O42, by `step_of_rst`. -/
theorem resetEdgeSetsEveryElement : Obligations.ResetEdgeSetsEveryElement := by
  unfold Obligations.ResetEdgeSetsEveryElement
  intro s hrst
  refine ⟨State.not_cmdReady_of_rst hrst, ?_⟩
  rw [step_of_rst s hrst, ← Phase.initFor_eq_ite]
  rfl

/-- Settles O44: each port (`outputPortsShowTheState`) at the state a reset edge leaves. -/
theorem portsAfterResetEdge : Obligations.PortsAfterResetEdge := by
  unfold Obligations.PortsAfterResetEdge
  intro s t hrst h
  rw [step_of_rst s hrst] at h; cases h
  obtain ⟨hready, hbusy, hvalid, -, hshown, hcode, houtOvf, halert⟩ :=
    outputPortsShowTheState (State.cold s.cfg s.host.tail s.execDraws)
  have hnoResp := Phase.initFor_ne_resp s.cfg.tInit
  obtain ⟨hdata, herr, hovf⟩ := hshown hnoResp
  rw [State.cold_phase, Phase.initFor_eq_idle_iff] at hready
  rw [State.cold_phase, (Phase.initFor_eq_idle_iff _).ne, ← Nat.pos_iff_ne_zero] at hbusy
  refine ⟨Bool.eq_false_iff.mpr (mt hvalid.mp (not_exists.mpr hnoResp)), hdata, herr, hovf, hcode,
    ?outOvf, ?alert, hbusy.trans or_comm, hready.trans and_comm⟩
  case outOvf => simpa using houtOvf
  case alert => simpa using halert

/-- In INIT nothing but the edge count and the pins changes, down to IDLE (70_reset_and_hazards.md R191). -/
theorem runEdges_init {s : State} {k : Nat} (hp : s.phase = Phase.initFor k) (j : Nat)
    (hrst : ∀ i, i < j → (s.pinsAt i).rst = false) (hj : j ≤ k) :
    runEdges j s = s.afterWaiting j (Phase.initFor (k - j)) := by
  induction j with
  | zero => exact (State.afterWaiting_zero hp).symm
  | succ j ih =>
    have hinit : Phase.initFor (k - j) = .init (k - j) := by
      rw [Phase.initFor_eq_ite, if_neg (by omega)]
    rw [Nat.sub_succ']
    exact runEdges_afterWaiting_succ (ih (fun i hi => hrst i (by omega)) (by omega))
      (hrst j (Nat.lt_succ_self j)) (.countInit (k - j) hinit)

/-- Settles O43, by counting INIT down (`runEdges_init`); with edges of INIT left the phase is not IDLE. -/
theorem initLastsItsEdges : Obligations.InitLastsItsEdges := by
  unfold Obligations.InitLastsItsEdges
  intro c host draws j hj hrst
  have hrun := runEdges_init (State.cold_phase c host draws) j hrst hj
  refine ⟨?_, fun hlt => ?_, c.tInit_le⟩
  · have hdone : c.tInit - j = 0 ↔ j = c.tInit := by omega
    rw [hrun, Phase.initFor_eq_ite]
    simp only [hdone]
    rfl
  · have hphase : (runEdges j (State.cold c host draws)).phase ≠ .idle := by
      rw [hrun, State.afterWaiting_phase, ne_eq, Phase.initFor_eq_idle_iff]
      omega
    exact (State.ports_of_not_idle hphase).symm

end Sys2Proof.Machine
